-- ==== Sys2Proof/Word.lean ====
section
/-! DEFINITION. The byte and the plainest modular arithmetic.

R9: `u<W>` holds `0 .. 2^W - 1`, nothing is signed, and arithmetic is on unbounded integers unless
written with `mod`. A tape cell, an instruction byte and a stream byte are 8 bits wide (R23, R38);
`pc` and `mp`, whose widths are parameters (R6), are natural numbers reduced `mod 2^W`. -/

namespace Sys2Proof

/-- One tape cell, one instruction byte, one stream byte (R23, R38, R49). -/
abbrev Byte := BitVec 8

/-- Number of values of a `w`-bit register: `2^w` (R9). -/
abbrev rangeOf (w : Nat) : Nat := 2 ^ w

end Sys2Proof
end

