-- ==== Sys2Proof/Syntax.lean ====
section
/-! DEFINITION. The eight instructions (R2, R50) and the shape of a program image (R54, R55). -/

namespace Sys2Proof

/-- The instruction set, one constructor per row of the opcode map R50, in its order.
No instruction has an explicit operand (R49, R52). -/
inductive Instr where
  /-- `>` `PTR_INC` (R81). -/
  | ptrInc
  /-- `<` `PTR_DEC` (R82). -/
  | ptrDec
  /-- `+` `CELL_INC` (R84). -/
  | cellInc
  /-- `-` `CELL_DEC` (R85). -/
  | cellDec
  /-- `.` `OUT` (R88). -/
  | output
  /-- `,` `IN` (R89). -/
  | input
  /-- `[` `LOOP_START` (R90). -/
  | loopStart
  /-- `]` `LOOP_END` (R91). -/
  | loopEnd
  deriving DecidableEq, Repr

/-- A program image as the engine reads it: the instruction bytes (R54; `N` is their number) and the
jump-target table (R55), one entry per index, `none` for `NONE`; an index past the list's end has
no entry (log entry 15). -/
structure Image where
  prog  : List Byte
  table : List (Option Nat)
  deriving DecidableEq, Repr

end Sys2Proof
end

