-- ==== Sys2Proof/Decode.lean ====
section
/-! DEFINITION. The decoder (R62) and, after it, the encoder, both from the opcode map R50. -/

namespace Sys2Proof

/-- One row of the opcode map R50: the byte is the row's when its masked bits equal the pattern. -/
structure OpcodeRow where
  pattern : Byte
  mask    : Byte
  instr   : Instr
  deriving DecidableEq, Repr

/-- The opcode map R50; "the mask of every opcode is `0xFF`". -/
def opcodeMap : List OpcodeRow :=
  [ { pattern := 0x3E#8, mask := 0xFF#8, instr := .ptrInc },
    { pattern := 0x3C#8, mask := 0xFF#8, instr := .ptrDec },
    { pattern := 0x2B#8, mask := 0xFF#8, instr := .cellInc },
    { pattern := 0x2D#8, mask := 0xFF#8, instr := .cellDec },
    { pattern := 0x2E#8, mask := 0xFF#8, instr := .output },
    { pattern := 0x2C#8, mask := 0xFF#8, instr := .input },
    { pattern := 0x5B#8, mask := 0xFF#8, instr := .loopStart },
    { pattern := 0x5D#8, mask := 0xFF#8, instr := .loopEnd } ]

/-- What the decoder yields: "one of the eight instructions or `ILLEGAL`" (R62). -/
inductive Decoded where
  | instr (i : Instr)
  /-- The byte is none of the eight opcodes (R53); the engine faults on it (R73). -/
  | illegal (b : Byte)
  deriving DecidableEq, Repr

/-- The byte matches the row on the row's mask. -/
def OpcodeRow.matchesByte (r : OpcodeRow) (b : Byte) : Bool := b &&& r.mask == r.pattern

/-- Decode one byte: total on every byte value, all eight bits compared (R62). -/
def decode (b : Byte) : Decoded :=
  match opcodeMap.find? (fun r => r.matchesByte b) with
  | some r => .instr r.instr
  | none => .illegal b

/-- The byte is in the instruction alphabet of R50. -/
def isOpcode (b : Byte) : Bool :=
  match decode b with
  | .instr _ => true
  | .illegal _ => false

/-- Decode a byte sequence, one byte per instruction (R63), refusing it when a byte is illegal. -/
def decodeAll : List Byte → Option (List Instr)
  | [] => some []
  | b :: rest =>
    match decode b with
    | .illegal _ => none
    | .instr i => (decodeAll rest).map (fun is => i :: is)

/-- The instruction read from a word numbered as the opcode table numbers it: its one byte is
bits 7..0 (R49). -/
def decodeTableWord (nbits w : Nat) : Option Instr :=
  match decode (BitVec.ofNat 8 (w % rangeOf nbits)) with
  | .instr i => some i
  | .illegal _ => none

/-- The opcode of an instruction (R50). -/
def encode : Instr → Byte
  | .ptrInc => 0x3E#8
  | .ptrDec => 0x3C#8
  | .cellInc => 0x2B#8
  | .cellDec => 0x2D#8
  | .output => 0x2E#8
  | .input => 0x2C#8
  | .loopStart => 0x5B#8
  | .loopEnd => 0x5D#8

/-- The bytes of an instruction sequence (R63), which is also its source text (R64). -/
def encodeAll (is : List Instr) : List Byte := is.map encode

end Sys2Proof
end

