-- ==== Sys2Proof/Config.lean ====
section
/-! DEFINITION. The implementation parameters of R6 and the two reference configurations of R8.

The parameters are an argument of the model (R6, R29): the field `cfg` of `State` holds them, no step
writes them, and a statement over all states is a statement over all configurations (log entry 1). -/

namespace Sys2Proof

/-- The open parameters of R6. `CELL_W` is fixed at 8 by R6 and is the width of `Byte`. -/
structure Config where
  /-- `TAPE_LEN`: number of tape cells (R6, D4). -/
  tapeLen : Nat
  /-- `MP_W`: width of the memory pointer in bits (R6, D3). -/
  mpW : Nat
  /-- `PC_W`: width of the program counter in bits (R6, D2). -/
  pcW : Nat
  /-- `PROG_MAX`: largest instruction count the program store holds (R6, D5). -/
  progMax : Nat
  deriving DecidableEq, Repr

/-- `REF` (R8, D23). -/
def Config.ref : Config := { tapeLen := 30000, mpW := 16, pcW := 16, progMax := 65535 }

/-- `SMALL` (R8, D23). -/
def Config.small : Config := { tapeLen := 4, mpW := 8, pcW := 8, progMax := 255 }

end Sys2Proof
end

