-- ==== Sys2Proof/WellFormed.lean ====
section
/-! DEFINITION. Well-formedness of an instruction and of a configuration. The checks on a program
image (R54, R55) need the opcode map and stand in Machine/Image.lean. -/

namespace Sys2Proof

/-- The whole byte is the opcode: an instruction has no field that could be ill-formed (R49, R52). -/
def Instr.wf : Instr → Bool
  | .ptrInc => true
  | .ptrDec => true
  | .cellInc => true
  | .cellDec => true
  | .output => true
  | .input => true
  | .loopStart => true
  | .loopEnd => true

/-- R7, first item: `MP_W >= 1` and `PC_W >= 1`. -/
def Config.widthsOk (c : Config) : Bool := decide (1 ≤ c.mpW) && decide (1 ≤ c.pcW)

/-- R7, second item: `1 <= TAPE_LEN < 2^MP_W`. -/
def Config.tapeOk (c : Config) : Bool := decide (1 ≤ c.tapeLen) && decide (c.tapeLen < rangeOf c.mpW)

/-- R7, third item: `PROG_MAX <= 2^PC_W - 1`. -/
def Config.progOk (c : Config) : Bool := decide (c.progMax ≤ rangeOf c.pcW - 1)

/-- R7: "a configuration that breaks one is not a configuration of this hardware". -/
def Config.wf (c : Config) : Bool := c.widthsOk && c.tapeOk && c.progOk

end Sys2Proof
end

