-- ==== Sys2Proof/Machine/Image.lean ====
section
/-! DEFINITION. The program image: fetch and jump-target read (R36, R37), the checks that admit an
image (R54, R55), and the placing of one instruction used by `State.withFetchWord`. -/

namespace Sys2Proof

/-- `N`, the instruction count (R54). -/
def Image.count (img : Image) : Nat := img.prog.length

/-- `Fetch(i)`: the byte at index `i` of the program store; no byte for `i >= N` (R36). -/
def Image.fetch (img : Image) (i : Nat) : Option Byte := img.prog[i]?

/-- `JumpTarget(i)`: the table's entry for `i`, `none` for `NONE` (R37, R55). -/
def Image.jumpTarget (img : Image) (i : Nat) : Option Nat := (img.table[i]?).getD none

/-- The empty program, `N = 0` (R54: "a legal image"). -/
def Image.empty : Image := { prog := [], table := [] }

/-- The brackets of a byte sequence are balanced among themselves, with `depth` loops already open. -/
def balancedFrom : Nat → List Byte → Bool
  | depth, [] => depth == 0
  | depth, b :: rest =>
    match decode b with
    | .instr .loopStart => balancedFrom (depth + 1) rest
    | .instr .loopEnd =>
      match depth with
      | 0 => false
      | d + 1 => balancedFrom d rest
    | _ => balancedFrom depth rest

/-- The bytes strictly between indices `i` and `j`. -/
def Image.between (img : Image) (i j : Nat) : List Byte := (img.prog.drop (i + 1)).take (j - i - 1)

/-- R54: `N <= PROG_MAX`. -/
def Image.lengthOk (c : Config) (img : Image) : Bool := decide (img.count ≤ c.progMax)

/-- R54: each element is one of the eight bytes of R50. -/
def Image.bytesOk (img : Image) : Bool := img.prog.all isOpcode

/-- R55: the table is a partial function from `0 .. N-1`: no entry at or past `N`. -/
def Image.domainOk (img : Image) : Bool := (img.table.drop img.count).all (fun e => e == none)

/-- R55 items 1 and 4, for one index holding `[`: its entry is the index of a later `]` whose entry
leads back, and the brackets strictly between are balanced. -/
def Image.startOk (img : Image) (i : Nat) : Bool :=
  match img.jumpTarget i with
  | none => false
  | some j =>
    img.fetch j == some (encode .loopEnd) && img.jumpTarget j == some i && decide (i < j)
      && balancedFrom 0 (img.between i j)

/-- R55 item 2, for one index holding `]`: its entry is the index of a `[` whose entry leads back. -/
def Image.endOk (img : Image) (j : Nat) : Bool :=
  match img.jumpTarget j with
  | none => false
  | some i => img.fetch i == some (encode .loopStart) && img.jumpTarget i == some j

/-- R55 items 1 to 4 at one index; item 3: no entry for any other instruction. -/
def Image.entryOk (img : Image) (i : Nat) : Bool :=
  if img.fetch i = some (encode .loopStart) then img.startOk i
  else if img.fetch i = some (encode .loopEnd) then img.endOk i
  else img.jumpTarget i == none

/-- R55: every program index passes. -/
def Image.tableOk (img : Image) : Bool := (List.range img.count).all img.entryOk

/-- A well-formed image of a configuration: R54 and R55. Only such an image is admitted (R78). -/
def Image.wf (c : Config) (img : Image) : Bool :=
  img.lengthOk c && img.bytesOk && img.domainOk && img.tableOk

/-- The image with byte `b` and table entry `e` at index `i`, the program filled with `+` up to `i`
when it is shorter (log entry 20). -/
def Image.place (img : Image) (i : Nat) (b : Byte) (e : Option Nat) : Image :=
  { prog := (img.prog ++ List.replicate (i + 1 - img.prog.length) (encode .cellInc)).set i b,
    table := (img.table ++ List.replicate (i + 1 - img.table.length) none).set i e }

/-- The image with byte `b` as the instruction at index `i`. The operand of a loop instruction is its
table entry (R52), so `[` and `]` are placed with a matching partner next to them, where the
program has room for one: `]` at index 0 can have none (log entry 20). -/
def Image.placeInstr (img : Image) (i : Nat) (b : Byte) : Image :=
  match decode b, i with
  | .instr .loopStart, i => (img.place (i + 1) (encode .loopEnd) (some i)).place i b (some (i + 1))
  | .instr .loopEnd, i' + 1 => (img.place (i' + 1) b (some i')).place i' (encode .loopStart) (some (i' + 1))
  | _, i => img.place i b none

end Sys2Proof
end

