-- ==== Sys2Proof/Machine/Memory.lean ====
section
/-! DEFINITION. The tape as a canonical list of cells (R23, R32).

An address that is not listed reads 0: R30 resets every cell to 0. -/

namespace Sys2Proof.Machine

/-- Cells by address: addresses strictly rising, no cell holding `Memory.unlisted`. -/
abbrev Memory := List Host.Cell

/-- What a cell that is not listed reads as: "all cells zeroed" at reset (R23, R30). -/
def Memory.unlisted : Byte := 0#8

/-- The value of cell `a`. -/
def Memory.read : Memory → Nat → Byte
  | [], _ => Memory.unlisted
  | (b, w) :: rest, a => if a = b then w else Memory.read rest a

/-- A cell in front of a memory, left out when it holds what an unlisted cell reads as. -/
def Memory.cons (a : Nat) (v : Byte) (m : Memory) : Memory :=
  if v = Memory.unlisted then m else (a, v) :: m

/-- Set cell `a` to `v`, keeping the canonical form; no other cell changes (R35). -/
def Memory.write : Memory → Nat → Byte → Memory
  | [], a, v => Memory.cons a v []
  | (b, w) :: rest, a, v =>
    if a < b then Memory.cons a v ((b, w) :: rest)
    else if a = b then Memory.cons a v rest
    else (b, w) :: Memory.write rest a v

/-- The canonical form: addresses strictly rising, no listed cell reads as unlisted. -/
def Memory.wf : Memory → Bool
  | [] => true
  | (a, v) :: rest => v != Memory.unlisted && rest.all (fun c => decide (a < c.1)) && Memory.wf rest

/-- Every listed address is below `n`: no cell beyond the tape is held (R32). -/
def Memory.below (n : Nat) (m : Memory) : Bool := m.all (fun c => decide (c.1 < n))

end Sys2Proof.Machine
end

