-- ==== Sys2Proof/Machine/State.lean ====
section
/-! DEFINITION. The state of one engine, the ways a step can stop, and reset (R20 to R30).

Everything is plain data. The spec's faults are states, not stops: R99 describes the entry whole. -/

namespace Sys2Proof.Machine

/-- The finite-state-machine register `fsm`, three legal values (R24). -/
inductive Fsm where
  | running
  | endOfProgram
  | faulted
  deriving DecidableEq, Repr

/-- The fault-cause register and the cause of a fault (R25, R93). -/
inductive FaultCause where
  /-- `NONE` (0): no fault. -/
  | none
  /-- `READ_ACCESS_VIOLATION` (1), raised by `.` `[` `]` (R94). -/
  | readAccessViolation
  /-- `WRITE_ACCESS_VIOLATION` (2), raised by `+` `-` `,` (R95). -/
  | writeAccessViolation
  /-- `INPUT_SOURCE_FAILURE` (3), raised by `,` (R96). -/
  | inputSourceFailure
  /-- `ILLEGAL_INSTRUCTION` (4), raised on the fetch of a byte that is no opcode (R97). -/
  | illegalInstruction
  /-- `MISSING_JUMP_TARGET` (5), raised by `[` `]` (R98). -/
  | missingJumpTarget
  deriving DecidableEq, Repr

/-- The host's answer to an input request (R87). -/
inductive InputAnswer where
  /-- `DATA(b)`: one byte of the source is consumed. -/
  | data (b : Byte)
  /-- `FAIL`: the source cannot supply a byte, exhaustion included. -/
  | fail
  deriving DecidableEq, Repr

/-- The response of a step to the host (R66). -/
inductive Response where
  /-- `EXECUTED(i)`: `i` is the index of the instruction just executed. -/
  | executed (i : Nat)
  /-- `END_OF_PROGRAM`. -/
  | endOfProgram
  /-- `FAULT(c)`. -/
  | fault (c : FaultCause)
  deriving DecidableEq, Repr

/-- The step in progress, if any (R26 (b), R30): a step in progress waits in `Receive` or in `Emit`. -/
inductive Wait where
  /-- No step is in progress. -/
  | idle
  /-- A `,` step waits for the host's answer (R87, R116). -/
  | receive
  /-- A `.` step offers `b` and waits for the sink (R86, R117). -/
  | emit (b : Byte)
  deriving DecidableEq, Repr

/-- One engine, its read-only inputs, and its host's side of the interface. -/
structure State where
  /-- The configuration, a read-only input (R6, R29). -/
  cfg : Config
  /-- The program image, a read-only input (R29, R54, R55). -/
  image : Image
  /-- `pc` (R21). -/
  pc : Nat
  /-- `mp` (R22). -/
  mp : Nat
  /-- `tape` (R23). -/
  tape : Memory
  /-- `fsm` (R24). -/
  fsm : Fsm
  /-- `fault_cause` (R25). -/
  faultCause : FaultCause
  /-- The step in progress (R26, R30). -/
  wait : Wait
  /-- The response of the last step; none where it returned none (R66; the model's field). -/
  resp : Option Response
  /-- The input source's answers that are ready, the next one first (R87; the model's field). -/
  answers : List InputAnswer
  /-- The sink takes a byte offered to it: `out_ready` (R86; the model's field). -/
  sinkReady : Bool
  /-- The bytes the sink has taken, oldest first (R86, R108; the model's field). -/
  emitted : List Byte
  deriving DecidableEq, Repr

/-- No step of this machine stops with a fault: a fault of the spec is the state R99 describes, which
the meaning takes as its next state. Nothing raises one, so nothing is lost: safe. -/
inductive Fault where
  deriving DecidableEq, Repr

/-- The reasons a run or an act of the host is refused. No step of the engine refuses. -/
inductive Refusal where
  /-- Raised by an arm of `exec` whose instruction has no meaning yet. Safe: the run stops. -/
  | notModelled (mnemonic : String)
  /-- Raised by `boot`: the parameters break R7, so this is no configuration of the hardware. Safe. -/
  | configNotAdmitted
  /-- Raised by `boot` and `hostStep`: the image breaks R54 or R55 (R78, U9). Safe. -/
  | imageNotWellFormed
  /-- Raised by `hostStep`: a step request while a step is in progress (R65, R113, D21). Safe. -/
  | overlappingRequest
  /-- Raised by `hostStep`: an image placed before the session's end (R114, D20). Safe. -/
  | imageChangedInSession
  deriving DecidableEq, Repr

/-- The state after reset (R30, R110) of an engine with this configuration and image. The fields
that are no engine state hold: no response yet, no answer ready, a sink that takes bytes, no byte
emitted (log entries 4, 5, 6). -/
def State.resetOf (c : Config) (img : Image) : State :=
  { cfg := c, image := img, pc := 0, mp := 0, tape := [], fsm := .running, faultCause := .none,
    wait := .idle, resp := none, answers := [], sinkReady := true, emitted := [] }

/-- The machine right after reset: the reference configuration `REF` and no program loaded
(log entries 1, 2). -/
def State.reset : State := State.resetOf Config.ref Image.empty

end Sys2Proof.Machine
end

