-- ==== Sys2Proof/Machine/Ops.lean ====
section
/-! DEFINITION. The shared operations: the state updates, the address generator, the tape primitives,
the streams, the commit, fault entry and reset.

The spec gives no return from a fault: R100, "no trap vector, no handler, no saved-state register, no
mask and no return-from-trap instruction"; reset is the only way out of `FAULTED`. -/

namespace Sys2Proof.Machine

/-! ### Updates of single pieces of state -/

/-- `mp <- v`. -/
def State.setMp (v : Nat) (s : State) : State := { s with mp := v }

/-- `tape[a] <- v` (R35). -/
def State.setCell (a : Nat) (v : Byte) (s : State) : State := { s with tape := s.tape.write a v }

/-- The next input answer is consumed (R87). -/
def State.dropAnswer (s : State) : State := { s with answers := s.answers.tail }

/-- One more input answer is ready, after those that are (R87). -/
def State.addAnswer (x : InputAnswer) (s : State) : State := { s with answers := s.answers ++ [x] }

/-- The host drives `out_ready` (R86). -/
def State.setSinkReady (r : Bool) (s : State) : State := { s with sinkReady := r }

/-- The sink takes byte `b` (R86). -/
def State.handOver (b : Byte) (s : State) : State := { s with emitted := s.emitted ++ [b] }

/-- The step ends with response `r`, and no step is in progress (R66). -/
def State.respond (r : Response) (s : State) : State := { s with wait := .idle, resp := some r }

/-- The step stays in progress: it waits, has returned no response and has written nothing
(R26, R116, R117). -/
def State.holdIn (w : Wait) (s : State) : State := { s with wait := w, resp := none }

/-- `pc <- next` and the response `EXECUTED(i)`, `i` the index the step began at (R74). -/
def State.advance (next : Nat) (s : State) : State :=
  { s with pc := next, wait := .idle, resp := some (.executed s.pc) }

/-- `fault_cause <- c`, `fsm <- FAULTED` and the response `FAULT(c)` (R99). -/
def State.enterFault (c : FaultCause) (s : State) : State :=
  { s with faultCause := c, fsm := .faulted, wait := .idle, resp := some (.fault c) }

/-- `fsm <- END_OF_PROGRAM` and the response `END_OF_PROGRAM` (R71). -/
def State.enterEnd (s : State) : State :=
  { s with fsm := .endOfProgram, wait := .idle, resp := some .endOfProgram }

/-- The program store holds `img` (R112 item 3). -/
def State.withImage (img : Image) (s : State) : State := { s with image := img }

/-- Reset (R110): the engine's state takes the values of R30, a waiting step is withdrawn without a
response (R119); the image and the parameters stay, and so does the host's side of the streams
(log entry 12). -/
def State.applyReset (s : State) : State :=
  { s with pc := 0, mp := 0, tape := [], fsm := .running, faultCause := .none, wait := .idle,
           resp := none }

/-! ### Counter and pointer arithmetic -/

/-- The tentative next counter `(pc + 1) mod 2^PC_W` (R70). -/
def State.nextPc (s : State) : Nat := (s.pc + 1) % rangeOf s.cfg.pcW

/-- The counter one past a jump target, `(t + 1) mod 2^PC_W` (R90, R91). -/
def State.pcPast (t : Nat) (s : State) : Nat := (t + 1) % rangeOf s.cfg.pcW

/-- `mp_up`: `(mp + 1) mod 2^MP_W` (R80). -/
def State.mpUp (s : State) : Nat := (s.mp + 1) % rangeOf s.cfg.mpW

/-- `mp_down`: `(mp - 1) mod 2^MP_W`, the non-negative remainder (R9, R80). -/
def State.mpDown (s : State) : Nat := (s.mp + (rangeOf s.cfg.mpW - 1)) % rangeOf s.cfg.mpW

/-- A cell plus one, modulo 256 (R83). -/
def cellUp (v : Byte) : Byte := v + 1#8

/-- A cell minus one, modulo 256 (R83). -/
def cellDown (v : Byte) : Byte := v - 1#8

/-! ### The tape -/

/-- `InBounds(a) = (a < TAPE_LEN)` (R33). -/
def State.inBounds (a : Nat) (s : State) : Bool := decide (a < s.cfg.tapeLen)

/-- What a tape read gives: the cell's value, or the cause it raises. -/
inductive ReadResult where
  | value (v : Byte)
  | violation (c : FaultCause)
  deriving DecidableEq, Repr

/-- `MemRead(a, 1)` (R34). -/
def memRead (a : Nat) (s : State) : ReadResult :=
  if s.inBounds a then .value (s.tape.read a) else .violation .readAccessViolation

/-- What a tape write gives: the state with the cell set, or the cause it raises. -/
inductive WriteResult where
  | done (s : State)
  | violation (c : FaultCause)
  deriving DecidableEq, Repr

/-- `MemWrite(a, 1, v)` (R35). -/
def memWrite (a : Nat) (v : Byte) (s : State) : WriteResult :=
  if s.inBounds a then .done (s.setCell a v) else .violation .writeAccessViolation

/-! ### How a step ends -/

/-- The commit of R74. -/
def commit (next : Nat) (s : State) : Host.Outcome State Fault Refusal := .next (s.advance next)

/-- `raise Fault(c)` (R99): taking a fault, the one operation behind every fault of the machine. -/
def raiseFault (c : FaultCause) (s : State) : Host.Outcome State Fault Refusal := .next (s.enterFault c)

/-- The step waits (R116, R117); the next call of `step` takes it up again (log entry 7). -/
def hold (w : Wait) (s : State) : Host.Outcome State Fault Refusal := .next (s.holdIn w)

/-- The end check found `pc >= N` (R71). -/
def finish (s : State) : Host.Outcome State Fault Refusal := .next s.enterEnd

/-- A step request in a terminal state repeats its response and changes nothing (R67). -/
def repeatResponse (r : Response) (s : State) : Host.Outcome State Fault Refusal := .next (s.respond r)

/-- A tape write, then the commit, or the write's fault (R35, R74, R99). -/
def writeAndCommit (a : Nat) (v : Byte) (next : Nat) (s : State) : Host.Outcome State Fault Refusal :=
  match memWrite a v s with
  | .violation c => raiseFault c s
  | .done s' => commit next s'

/-! ### The streams -/

/-- What `Receive()` gives in this step. -/
inductive Received where
  /-- The host has not answered: the step waits. -/
  | nothing
  /-- The host's answer, and the state with it consumed. -/
  | answer (x : InputAnswer) (s : State)
  deriving DecidableEq, Repr

/-- `Receive()`: one request, answered by the next answer that is ready (R87). -/
def receive (s : State) : Received :=
  match s.answers with
  | [] => .nothing
  | x :: _ => .answer x s.dropAnswer

/-- `Emit(b)`, then the commit; while the sink does not take the byte the step waits with the byte
offered (R86, R117). -/
def emitAndCommit (b : Byte) (next : Nat) (s : State) : Host.Outcome State Fault Refusal :=
  if s.sinkReady then commit next (s.handOver b) else hold (.emit b) s

/-- The jump of a loop instruction: past the entry `JumpTarget(pc)`, or the fault when the table has
none (R90, R91, R98). -/
def jumpPastTarget (s : State) : Host.Outcome State Fault Refusal :=
  match s.image.jumpTarget s.pc with
  | none => raiseFault .missingJumpTarget s
  | some t => commit (s.pcPast t) s

end Sys2Proof.Machine
end

