-- ==== Sys2Proof/Machine/Operands.lean ====
section
/-! DEFINITION. The implicit operands (R52): there is one addressing form, the cell at `mp`, and no
immediate. -/

namespace Sys2Proof.Machine

/-- The cell operand of `.` `[` `]`: the checked read of `tape[mp]` (R34, R52). -/
def readOperand (s : State) : ReadResult := memRead s.mp s

/-- The cell operand of `+` `-`: the value of `tape[mp]` for a read-modify-write, whose bounds check
comes before the read and reports a write (R84, R85, C2). -/
def modifyOperand (s : State) : ReadResult :=
  if s.inBounds s.mp then .value (s.tape.read s.mp) else .violation .writeAccessViolation

/-- The cell operand of `+` `-` `,` as a destination: `tape[mp] <- v`, then the commit (R35, R52). -/
def writeOperand (v : Byte) (next : Nat) (s : State) : Host.Outcome State Fault Refusal :=
  writeAndCommit s.mp v next s

end Sys2Proof.Machine
end

