-- ==== Sys2Proof/Machine/Cell.lean ====
section
/-! DEFINITION. Cell arithmetic: `+` and `-` (R83 to R85). -/

namespace Sys2Proof.Machine

/-- `+` (R84). -/
def execCellInc (s : State) : Host.Outcome State Fault Refusal :=
  match modifyOperand s with
  | .violation c => raiseFault c s
  | .value v => writeOperand (cellUp v) s.nextPc s

/-- `-` (R85). -/
def execCellDec (s : State) : Host.Outcome State Fault Refusal :=
  match modifyOperand s with
  | .violation c => raiseFault c s
  | .value v => writeOperand (cellDown v) s.nextPc s

end Sys2Proof.Machine
end

