-- ==== Sys2Proof/Machine/Io.lean ====
section
/-! DEFINITION. Output and input: `.` and `,` (R86 to R89). -/

namespace Sys2Proof.Machine

/-- `.` (R88): the bounds check comes before `Emit`. -/
def execOutput (s : State) : Host.Outcome State Fault Refusal :=
  match readOperand s with
  | .violation c => raiseFault c s
  | .value v => emitAndCommit v s.nextPc s

/-- `,` (R89): `Receive` comes before the bounds check, so a byte received is lost when the write
faults, and a failing source is reported first (R101). -/
def execInput (s : State) : Host.Outcome State Fault Refusal :=
  match receive s with
  | .nothing => hold .receive s
  | .answer .fail s' => raiseFault .inputSourceFailure s'
  | .answer (.data b) s' => writeOperand b s'.nextPc s'

end Sys2Proof.Machine
end

