-- ==== Sys2Proof/Machine/Flags.lean ====
section
/-! DEFINITION. There are no flags (R27): "the loop instructions test the value of the current cell
directly". That test is all this file holds. -/

namespace Sys2Proof.Machine

/-- The test of `[` and `]`: the cell holds 0 (R27, R90, R91). -/
def cellIsZero (v : Byte) : Bool := v == 0#8

end Sys2Proof.Machine
end

