-- ==== Sys2Proof/Machine/Loop.lean ====
section
/-! DEFINITION. Loops: `[` and `]` (R90 to R92). -/

namespace Sys2Proof.Machine

/-- `[` (R90): jumps when the cell is zero; the table is consulted only then. -/
def execLoopStart (s : State) : Host.Outcome State Fault Refusal :=
  match readOperand s with
  | .violation c => raiseFault c s
  | .value v => if cellIsZero v then jumpPastTarget s else commit s.nextPc s

/-- `]` (R91): jumps when the cell is not zero; the table is consulted only then. -/
def execLoopEnd (s : State) : Host.Outcome State Fault Refusal :=
  match readOperand s with
  | .violation c => raiseFault c s
  | .value v => if cellIsZero v then commit s.nextPc s else jumpPastTarget s

end Sys2Proof.Machine
end

