-- ==== Sys2Proof/Machine/Pointer.lean ====
section
/-! DEFINITION. Pointer movement: `>` and `<` (R80 to R82). No bounds check, no fault. -/

namespace Sys2Proof.Machine

/-- `>` (R81). -/
def execPtrInc (s : State) : Host.Outcome State Fault Refusal := commit s.nextPc (s.setMp s.mpUp)

/-- `<` (R82). -/
def execPtrDec (s : State) : Host.Outcome State Fault Refusal := commit s.nextPc (s.setMp s.mpDown)

end Sys2Proof.Machine
end

