-- ==== Sys2Proof/Machine/Dispatch.lean ====
section
/-! DEFINITION. One arm per instruction (R72). -/

namespace Sys2Proof.Machine

def exec (i : Instr) (s : State) : Host.Outcome State Fault Refusal :=
  match i with
  | .ptrInc => Sys2Proof.Machine.execPtrInc s
  | .ptrDec => Sys2Proof.Machine.execPtrDec s
  | .cellInc => Sys2Proof.Machine.execCellInc s
  | .cellDec => Sys2Proof.Machine.execCellDec s
  | .output => Sys2Proof.Machine.execOutput s
  | .input => Sys2Proof.Machine.execInput s
  | .loopStart => Sys2Proof.Machine.execLoopStart s
  | .loopEnd => Sys2Proof.Machine.execLoopEnd s

end Sys2Proof.Machine
end

