-- ==== Sys2Proof/Machine/Fetch.lean ====
section
/-! DEFINITION. The end check and the fetch that precede dispatch (R36, R71, R72), and the placing of
an instruction where the next step fetches it. -/

namespace Sys2Proof.Machine

/-- What a running step finds at `pc`. -/
inductive Fetched where
  /-- `pc >= N`: nothing is fetched (R71). -/
  | ended
  /-- The byte at `pc` is no opcode (R73). -/
  | illegal (b : Byte)
  | instr (i : Instr)
  deriving DecidableEq, Repr

/-- Decode a fetched byte (R62, R72). -/
def fetchedByte (b : Byte) : Fetched :=
  match decode b with
  | .illegal b => .illegal b
  | .instr i => .instr i

/-- The end check `pc >= N` (R71), then `Fetch(pc)` (R36). -/
def fetchAt (img : Image) (pc : Nat) : Fetched :=
  if img.count ≤ pc then .ended
  else
    match img.fetch pc with
    | none => .ended
    | some b => fetchedByte b

/-- What the next running step finds. -/
def State.fetched (s : State) : Fetched := fetchAt s.image s.pc

/-- The state in which the next step fetches byte `b`: the byte stands at `pc` in the image, with its
table entry (R52), and a terminal state is left, since only a running step fetches (R69). -/
def State.loadByte (b : Byte) (s : State) : State :=
  { s with image := s.image.placeInstr s.pc b, fsm := .running, faultCause := .none }

end Sys2Proof.Machine
end

