-- ==== Sys2Proof/Machine/Step.lean ====
section
/-! DEFINITION. One step (R69). -/

namespace Sys2Proof.Machine

/-- A step in `RUNNING`: the end check, the fetch, and dispatch (R69 to R73). -/
def stepFetched (f : Fetched) (s : State) : Host.Outcome State Fault Refusal :=
  match f with
  | .ended => finish s
  | .illegal _ => raiseFault .illegalInstruction s
  | .instr i => exec i s

/-- `Step()` (R69). Called while a step waits, it takes that step up again from its beginning, which
is the same, since a waiting step has written nothing (R26, log entry 7). -/
def step (s : State) : Host.Outcome State Fault Refusal :=
  match s.fsm with
  | .endOfProgram => repeatResponse .endOfProgram s
  | .faulted => repeatResponse (.fault s.faultCause) s
  | .running => stepFetched s.fetched s

/-- The state whose next step fetches and runs the instruction of this table word (log entry 20). -/
def State.withFetchWord (s : State) (nbits w : Nat) : State :=
  s.loadByte (BitVec.ofNat 8 (w % rangeOf nbits))

end Sys2Proof.Machine
end

