-- ==== Sys2Proof/Machine/Loader.lean ====
section
/-! DEFINITION. The loader's contract: `build` of R56, by the steps R57 to R60.

The loader stands outside the block (R5); it says which images the engine may be given. Its errors
are no engine faults and set no engine register (R61, R102). -/

namespace Sys2Proof

/-- The loader's errors, each only its condition (R61, D24, C3). -/
inductive LoadError where
  /-- `LOOP_END_WITHOUT_BEGINNING`: an unmatched `]` (R58). -/
  | loopEndWithoutBeginning
  /-- `LOOP_START_WITHOUT_END`: a loop that is never closed (R59). -/
  | loopStartWithoutEnd
  /-- `PROGRAM_TOO_LONG`: more than `PROG_MAX` instructions (R60, D5). -/
  | programTooLong
  deriving DecidableEq, Repr

/-- `Program | Error` (R56): on failure no image is produced. -/
inductive LoadResult where
  | image (img : Image)
  | error (e : LoadError)
  deriving DecidableEq, Repr

/-- Step 1, filter: keep the bytes of the alphabet in their order (R57). -/
def loadFilter (src : List Byte) : List Byte := src.filter isOpcode

/-- What the scan of step 2 holds: the stack of pending loop starts and the table so far (R58). -/
structure Scan where
  stack : List Nat
  table : List (Option Nat)
  deriving DecidableEq, Repr

/-- Step 2, bracket resolution, from index `i` on (R58); no scan at the first unmatched `]`. -/
def resolve (i : Nat) (sc : Scan) : List Byte → Option Scan
  | [] => some sc
  | b :: rest =>
    match decode b with
    | .instr .loopStart => resolve (i + 1) { sc with stack := i :: sc.stack } rest
    | .instr .loopEnd =>
      match sc.stack with
      | [] => none
      | j :: stack =>
        resolve (i + 1) { stack := stack, table := (sc.table.set j (some i)).set i (some j) } rest
    | _ => resolve (i + 1) sc rest

/-- The scan before its first byte: empty stack, every entry `NONE` (R58). -/
def Scan.start (n : Nat) : Scan := { stack := [], table := List.replicate n none }

/-- Steps 2 and 3 over the filtered program (R58, R59). -/
def loadResolve (prog : List Byte) : LoadResult :=
  match resolve 0 (Scan.start prog.length) prog with
  | none => .error .loopEndWithoutBeginning
  | some { stack := [], table } => .image { prog := prog, table := table }
  | some { stack := _ :: _, table := _ } => .error .loopStartWithoutEnd

/-- `build(source_bytes)`: filter, length check, bracket resolution, unclosed loops (R56 to R60). -/
def build (c : Config) (src : List Byte) : LoadResult :=
  if c.progMax < (loadFilter src).length then .error .programTooLong
  else loadResolve (loadFilter src)

end Sys2Proof
end

