-- ==== Sys2Proof/Machine/Session.lean ====
section
/-! DEFINITION. The host: boot (R112), and what the host may do to a running engine (R65, R86, R87,
R110 to R119). -/

namespace Sys2Proof.Machine

/-- Boot, items 1, 3 and 5 of R112: a configuration of this hardware (R7) and a well-formed image
(R78), placed, and the engine reset. Anything else is refused by name (R78, D4, U9). -/
def boot (c : Config) (img : Image) : Host.Outcome State Fault Refusal :=
  if c.wf then
    if img.wf c then .next (State.resetOf c img) else .refused .imageNotWellFormed
  else .refused .configNotAdmitted

/-- What comes of boot from source bytes: on a loader error no engine is started (R102, R112 item 2). -/
inductive Booted where
  | engine (o : Host.Outcome State Fault Refusal)
  | loadFailed (e : LoadError)
  deriving Repr

/-- Boot from source bytes, items 1 to 5 of R112. -/
def bootSource (c : Config) (src : List Byte) : Booted :=
  match build c src with
  | .error e => .loadFailed e
  | .image img => .engine (boot c img)

/-- `k` steps one after the other (R79), ending where one stops. -/
def stepN : Nat → State → Host.Outcome State Fault Refusal
  | 0, s => .next s
  | k + 1, s =>
    match step s with
    | .next s' => stepN k s'
    | .fault r => .fault r
    | .refused r => .refused r

/-- One act of the host. -/
inductive HostEvent where
  /-- A step request (R65). -/
  | request
  /-- The answer to an input request that waits (R87). -/
  | answer (x : InputAnswer)
  /-- The source has an answer ready before it is asked: "blocking until available" (R87). -/
  | ready (x : InputAnswer)
  /-- The host drives `out_ready` (R86). -/
  | sink (taking : Bool)
  /-- Reset (R110). -/
  | reset
  /-- An image is placed in the program store (R112 item 3). -/
  | place (img : Image)
  deriving DecidableEq, Repr

/-- A step request: no move while a step is in progress (R65, R113, D21). -/
def hostRequest (s : State) : Host.Outcome State Fault Refusal :=
  if s.wait = .idle then step s else .refused .overlappingRequest

/-- An answer completes the `,` step that waits for it; with no request waiting it belongs to no
step and is dropped (R87, R119). -/
def hostAnswer (x : InputAnswer) (s : State) : Host.Outcome State Fault Refusal :=
  if s.wait = .receive then step (s.addAnswer x) else .next s

/-- An answer made ready: taken at once by a `,` step that waits, else kept for a later one (R87). -/
def hostReady (x : InputAnswer) (s : State) : Host.Outcome State Fault Refusal :=
  if s.wait = .receive then step (s.addAnswer x) else .next (s.addAnswer x)

/-- A `.` step is waiting with its byte offered. -/
def State.offering (s : State) : Bool :=
  match s.wait with
  | .idle => false
  | .receive => false
  | .emit _ => true

/-- `out_ready` driven: the byte a `.` step offers is taken at once when it is 1 (R86, R117). -/
def hostSink (taking : Bool) (s : State) : Host.Outcome State Fault Refusal :=
  if taking && s.offering then step (s.setSinkReady taking) else .next (s.setSinkReady taking)

/-- Reset, in any state, a waiting step included (R110, R119). -/
def hostReset (s : State) : Host.Outcome State Fault Refusal := .next s.applyReset

/-- Placing an image: refused during a session (R114, D20) and when ill-formed (R78, U9). -/
def hostPlace (img : Image) (s : State) : Host.Outcome State Fault Refusal :=
  if s.fsm = .running then .refused .imageChangedInSession
  else if img.wf s.cfg then .next (s.withImage img)
  else .refused .imageNotWellFormed

/-- What one act of the host does. -/
def hostStep (e : HostEvent) (s : State) : Host.Outcome State Fault Refusal :=
  match e with
  | .request => hostRequest s
  | .answer x => hostAnswer x s
  | .ready x => hostReady x s
  | .sink taking => hostSink taking s
  | .reset => hostReset s
  | .place img => hostPlace img s

/-- A sequence of acts, ending at the first refusal. -/
def hostRun : List HostEvent → State → Host.Outcome State Fault Refusal
  | [], s => .next s
  | e :: es, s =>
    match hostStep e s with
    | .next s' => hostRun es s'
    | .fault r => .fault r
    | .refused r => .refused r

end Sys2Proof.Machine
end

