-- ==== Sys2Proof/Machine/Engines.lean ====
section
/-! DEFINITION. Several engines over one image (R48, R107): each has its own state, no act on one
reaches another. -/

namespace Sys2Proof.Machine

/-- One act of the host on engine `k`; a refused act leaves every engine as it is. -/
def enginesStep (k : Nat) (e : HostEvent) (es : List State) : List State :=
  match es[k]? with
  | none => es
  | some s =>
    match hostStep e s with
    | .next s' => es.set k s'
    | .fault _ => es
    | .refused _ => es

end Sys2Proof.Machine
end

