-- ==== Sys2Proof/Machine/Ports.lean ====
section
/-! DEFINITION. The codes and signals the host sees: register codes (R24, R93), the response (R66),
the stream signals (R86, R87) and the read port (R28). -/

namespace Sys2Proof.Machine

/-- `fsm` in two bits (R24); `0b11` is never held. -/
def Fsm.code : Fsm → BitVec 2
  | .running => 0b00#2
  | .endOfProgram => 0b01#2
  | .faulted => 0b10#2

/-- `fault_cause` in three bits (R25, R93); 6 and 7 are never held. -/
def FaultCause.code : FaultCause → BitVec 3
  | .none => 0#3
  | .readAccessViolation => 1#3
  | .writeAccessViolation => 2#3
  | .inputSourceFailure => 3#3
  | .illegalInstruction => 4#3
  | .missingJumpTarget => 5#3

/-- `resp_kind` (R66); `0b11` is never returned. -/
def Response.kind : Response → BitVec 2
  | .executed _ => 0b00#2
  | .endOfProgram => 0b01#2
  | .fault _ => 0b10#2

/-- `resp_index` (R66); zero for a kind that does not list it. -/
def Response.index : Response → Nat
  | .executed i => i
  | .endOfProgram => 0
  | .fault _ => 0

/-- `resp_cause` (R66); zero for a kind that does not list it. -/
def Response.cause : Response → BitVec 3
  | .executed _ => 0#3
  | .endOfProgram => 0#3
  | .fault c => c.code

/-- `in_req`: a `,` step waits for an answer (R87). -/
def State.inReq (s : State) : Bool := s.wait == .receive

/-- `out_valid`: a `.` step offers a byte (R86). -/
def State.outValid (s : State) : Bool :=
  match s.wait with
  | .idle => false
  | .receive => false
  | .emit _ => true

/-- `out_data[7:0]`: the byte offered; meant only while `out_valid` is 1 (R86). -/
def State.outData (s : State) : Option Byte :=
  match s.wait with
  | .idle => none
  | .receive => none
  | .emit b => some b

/-- `in_valid` of an answer (R87). -/
def InputAnswer.inValid : InputAnswer → Bool
  | .data _ => true
  | .fail => false

/-- `in_fail` of an answer (R87). -/
def InputAnswer.inFail : InputAnswer → Bool
  | .data _ => false
  | .fail => true

/-- `in_data[7:0]` of an answer; meant only while `in_valid` is 1 (R87). -/
def InputAnswer.inData : InputAnswer → Option Byte
  | .data b => some b
  | .fail => none

/-- What the host may read (R28). -/
inductive ReadRequest where
  | pc
  | mp
  | cell (a : Nat)
  | fsm
  | faultCause
  deriving DecidableEq, Repr

/-- The value on the read port, when no step is in progress and the cell exists (R28, log entry 22).
It is a function of the state: a read changes nothing. -/
def State.hostRead (q : ReadRequest) (s : State) : Option Nat :=
  if s.wait = .idle then
    match q with
    | .pc => some s.pc
    | .mp => some s.mp
    | .cell a => if s.inBounds a then some (s.tape.read a).toNat else none
    | .fsm => some s.fsm.code.toNat
    | .faultCause => some s.faultCause.code.toNat
  else none

end Sys2Proof.Machine
end

