-- ==== Sys2Proof/Safety.lean ====
section
/-! DEFINITION. The invariants the claims are stated with, and what counts as a safe run. -/

namespace Sys2Proof.Machine

/-- What holds of an engine whatever image it is given: registers in their ranges (R21, R22), the
tape canonical and inside its bounds (R23, R32), `fault_cause` set exactly in `FAULTED` (R25), and a
step in progress that waits for what its instruction waits for (R26). -/
structure State.Inv (s : State) : Prop where
  /-- The parameters satisfy R7. -/
  config : s.cfg.wf = true
  /-- `pc` is a `u<PC_W>` (R21). -/
  pcRange : s.pc < 2 ^ s.cfg.pcW
  /-- `mp` is a `u<MP_W>` (R22). -/
  mpRange : s.mp < 2 ^ s.cfg.mpW
  /-- The tape is in its canonical form. -/
  tapeWf : s.tape.wf = true
  /-- No cell outside `0 .. TAPE_LEN-1` is held (R32). -/
  tapeBelow : s.tape.below s.cfg.tapeLen = true
  /-- R25: a non-`NONE` value exactly when `fsm = FAULTED`. -/
  cause : s.faultCause ≠ .none ↔ s.fsm = .faulted
  /-- While a step waits, `fsm` stays `RUNNING` and it has returned no response (R26). -/
  waiting : s.wait ≠ .idle → s.fsm = .running ∧ s.resp = none
  /-- A step waits in `Receive` only at a `,` with no answer ready (R87, R116). -/
  receiving : s.wait = .receive → s.fetched = .instr .input ∧ s.answers = []
  /-- A step waits in `Emit` only at a `.`, offering the cell at `mp`, to a sink that does not take
  it (R86, R88, R117). -/
  emitting : ∀ b, s.wait = .emit b →
    s.fetched = .instr .output ∧ s.mp < s.cfg.tapeLen ∧ s.tape.read s.mp = b ∧ s.sinkReady = false

/-- A state of an engine that runs an admitted image (R78): the invariant, a well-formed image (R54,
R55), a counter that never passes the program's end (R77), and no fault that only an ill-formed
image can raise (R97, R98). -/
structure State.Admitted (s : State) : Prop where
  inv : s.Inv
  image : s.image.wf s.cfg = true
  pcBound : s.fsm = .running → s.pc ≤ s.image.count
  legal : s.faultCause ≠ .illegalInstruction
  target : s.faultCause ≠ .missingJumpTarget

/-- The session has ended: `fsm` is a terminal state (R24, R111). -/
def State.terminal (s : State) : Bool :=
  match s.fsm with
  | .running => false
  | .endOfProgram => true
  | .faulted => true

end Sys2Proof.Machine
end

