-- ==== Sys2Proof/Certificates/Slice0/Obligations.lean ====
section
/-! DEFINITION. The statements for the provers. Records are written out, so that a statement is read
beside its rule without the operations' definitions. -/

section Slice0Statements

open Sys2Proof Sys2Proof.Machine

/-! ### Parameters, encoding and the program image -/

/-- R7: a configuration is one of this hardware exactly when the three constraints hold; then the
unmapped range of R32 is not empty and the end value `pc = N` is representable. -/
def Obligations.ConfigConstraints : Prop :=
  ∀ c : Config,
    (c.wf = true ↔ (1 ≤ c.mpW ∧ 1 ≤ c.pcW) ∧ (1 ≤ c.tapeLen ∧ c.tapeLen < 2 ^ c.mpW) ∧
      c.progMax ≤ 2 ^ c.pcW - 1) ∧
    (c.wf = true → (∃ a, a < 2 ^ c.mpW ∧ c.tapeLen ≤ a) ∧ ∀ n, n ≤ c.progMax → n < 2 ^ c.pcW)

/-- Words written out from the opcode map decode to the instruction they stand for. -/
def Obligations.OpcodeWords : Prop :=
  decodeTableWord 8 0b00111110 = some .ptrInc ∧ decodeTableWord 8 0b00111100 = some .ptrDec ∧
  decodeTableWord 8 0b00101011 = some .cellInc ∧ decodeTableWord 8 0b00101101 = some .cellDec ∧
  decodeTableWord 8 0b00101110 = some .output ∧ decodeTableWord 8 0b00101100 = some .input ∧
  decodeTableWord 8 0b01011011 = some .loopStart ∧ decodeTableWord 8 0b01011101 = some .loopEnd ∧
  decodeTableWord 8 0x41 = none

/-- R62: each of the eight bytes of R50, and no other, decodes to its instruction, every other byte is
illegal, and what is decoded is the byte at `pc`. -/
def Obligations.DecodeIsTotalAndExact : Prop :=
  (∀ b : Byte,
    (decode b = .instr .ptrInc ↔ b = 0x3E#8) ∧ (decode b = .instr .ptrDec ↔ b = 0x3C#8) ∧
    (decode b = .instr .cellInc ↔ b = 0x2B#8) ∧ (decode b = .instr .cellDec ↔ b = 0x2D#8) ∧
    (decode b = .instr .output ↔ b = 0x2E#8) ∧ (decode b = .instr .input ↔ b = 0x2C#8) ∧
    (decode b = .instr .loopStart ↔ b = 0x5B#8) ∧ (decode b = .instr .loopEnd ↔ b = 0x5D#8) ∧
    (decode b = .illegal b ↔
      b ∉ [0x3E#8, 0x3C#8, 0x2B#8, 0x2D#8, 0x2E#8, 0x2C#8, 0x5B#8, 0x5D#8])) ∧
  (∀ (s : State) (b : Byte), s.image.fetch s.pc = some b →
    (∀ i, decode b = .instr i → s.fetched = .instr i) ∧
    (decode b = .illegal b → s.fetched = .illegal b))

/-- R63, R64: an instruction sequence, its bytes and its source text are one thing: decoding the
encoded sequence gives it back, only its own bytes decode to it, and the loader's filter keeps every
byte of it. -/
def Obligations.ProgramsDecodeAsEncoded : Prop :=
  (∀ is : List Instr, decodeAll (encodeAll is) = some is) ∧
  (∀ (bs : List Byte) (is : List Instr), decodeAll bs = some is → encodeAll is = bs) ∧
  (∀ is : List Instr, loadFilter (encodeAll is) = encodeAll is) ∧
  (∀ src : List Byte, ∃ is, decodeAll (loadFilter src) = some is)

/-- R57: the loader keeps exactly the bytes of the alphabet, in order; a source without loop characters
that is not too long loads, with a table that has no entry. -/
def Obligations.LoaderFilters : Prop :=
  ∀ (c : Config) (src : List Byte),
    let kept := src.filter (fun b =>
      b ∈ [0x3E#8, 0x3C#8, 0x2B#8, 0x2D#8, 0x2E#8, 0x2C#8, 0x5B#8, 0x5D#8])
    (∀ img, build c src = .image img → img.prog = kept ∧ img.count = kept.length) ∧
    (kept.length ≤ c.progMax → 0x5B#8 ∉ src → 0x5D#8 ∉ src →
      ∃ img, build c src = .image img ∧ img.prog = kept ∧ ∀ i, img.jumpTarget i = none)

/-- R58 to R61: which result the loader gives, in terms of the filtered program alone. A loop end is
unmatched when the program up to it holds more loop ends than loop starts. -/
def Obligations.LoaderResultCases : Prop :=
  ∀ (c : Config) (src : List Byte),
    let p := src.filter isOpcode
    let opened (k : Nat) := (p.take k).count 0x5B#8
    let closed (k : Nat) := (p.take k).count 0x5D#8
    (build c src = .error .programTooLong ↔ c.progMax < p.length) ∧
    (build c src = .error .loopEndWithoutBeginning ↔
      p.length ≤ c.progMax ∧ ∃ k, k ≤ p.length ∧ opened k < closed k) ∧
    (build c src = .error .loopStartWithoutEnd ↔
      p.length ≤ c.progMax ∧ (∀ k, k ≤ p.length → closed k ≤ opened k) ∧
        closed p.length < opened p.length) ∧
    ((∃ img, build c src = .image img) ↔
      p.length ≤ c.progMax ∧ (∀ k, k ≤ p.length → closed k ≤ opened k) ∧
        closed p.length = opened p.length)

/-- R56: on success the loader's output is an image that satisfies R54 and R55. -/
def Obligations.LoaderBuildsWellFormedImages : Prop :=
  ∀ (c : Config) (src : List Byte) (img : Image), build c src = .image img → img.wf c = true

/-- R54, R55: the image check says what the rules say. Item 4 of R55 is said by counts: in every initial
segment of the bytes strictly between a pair there are no more `]` than `[`, and in all of them as
many. -/
def Obligations.WellFormedImageMeaning : Prop :=
  ∀ (c : Config) (img : Image),
    img.wf c = true ↔
      img.prog.length ≤ c.progMax ∧
      (∀ b ∈ img.prog, b ∈ [0x3E#8, 0x3C#8, 0x2B#8, 0x2D#8, 0x2E#8, 0x2C#8, 0x5B#8, 0x5D#8]) ∧
      (∀ i, img.prog[i]? = some 0x5B#8 → ∃ j, img.jumpTarget i = some j ∧ img.prog[j]? = some 0x5D#8 ∧
        img.jumpTarget j = some i ∧ i < j ∧
        (∀ k, k ≤ j - i - 1 → ((img.prog.drop (i + 1)).take k).count 0x5D#8 ≤
          ((img.prog.drop (i + 1)).take k).count 0x5B#8) ∧
        ((img.prog.drop (i + 1)).take (j - i - 1)).count 0x5D#8 =
          ((img.prog.drop (i + 1)).take (j - i - 1)).count 0x5B#8) ∧
      (∀ j, img.prog[j]? = some 0x5D#8 → ∃ i, img.jumpTarget j = some i ∧ img.prog[i]? = some 0x5B#8 ∧
        img.jumpTarget i = some j) ∧
      (∀ i, img.prog[i]? ≠ some 0x5B#8 → img.prog[i]? ≠ some 0x5D#8 → img.jumpTarget i = none)

/-- R55: the table of a well-formed image is symmetric, and one past a target never wraps (R55's
sentence marked derived: "so `t + 1` never wraps"). -/
def Obligations.JumpTableSymmetric : Prop :=
  ∀ (c : Config) (img : Image) (i t : Nat), c.wf = true → img.wf c = true →
    img.jumpTarget i = some t →
      img.jumpTarget t = some i ∧ i < img.count ∧ t + 1 ≤ img.count ∧ (t + 1) % 2 ^ c.pcW = t + 1

/-! ### The step -/

/-- R72: before the end, a running step is the body of the instruction the byte at `pc` decodes to. -/
def Obligations.StepRunsDecodedInstruction : Prop :=
  ∀ (s : State) (b : Byte) (i : Instr), s.fsm = .running → s.image.fetch s.pc = some b →
    decode b = .instr i → step s = exec i s

/-- No state makes a step stop: every step answers a next state, a fault included, which the model
takes as the state R99 describes (log entry 23). -/
def Obligations.StepAlwaysAnswers : Prop := ∀ s : State, ∃ t, step s = .next t

/-- R71: at or past the end the step only writes `fsm` and answers `END_OF_PROGRAM`; nothing else ends
a program, and the empty program ends at its first step. -/
def Obligations.EndCheck : Prop :=
  (∀ s : State, s.fsm = .running → s.image.count ≤ s.pc →
    step s = .next { s with fsm := .endOfProgram, wait := .idle, resp := some .endOfProgram }) ∧
  (∀ s t : State, s.fsm = .running → step s = .next t → t.fsm = .endOfProgram →
    s.image.count ≤ s.pc) ∧
  (∀ c : Config, step (State.resetOf c Image.empty) = .next
    { State.resetOf c Image.empty with fsm := .endOfProgram, resp := some .endOfProgram })

/-- R73: a byte that is no opcode faults with nothing executed; a well-formed image holds none. -/
def Obligations.IllegalInstructionByte : Prop :=
  (∀ (s : State) (b : Byte), s.fsm = .running → s.image.fetch s.pc = some b →
    b ∉ [0x3E#8, 0x3C#8, 0x2B#8, 0x2D#8, 0x2E#8, 0x2C#8, 0x5B#8, 0x5D#8] →
      step s = .next { s with fsm := .faulted, faultCause := .illegalInstruction, wait := .idle,
                              resp := some (.fault .illegalInstruction) }) ∧
  (∀ (c : Config) (img : Image) (i : Nat) (b : Byte), img.wf c = true → img.fetch i = some b →
    b ∈ [0x3E#8, 0x3C#8, 0x2B#8, 0x2D#8, 0x2E#8, 0x2C#8, 0x5B#8, 0x5D#8])

/-- R67: a step in a terminal state repeats the response and changes nothing: the two fields written
are the response itself and "no step in progress". -/
def Obligations.TerminalStepsRepeat : Prop :=
  (∀ s : State, s.fsm = .endOfProgram →
    step s = .next { s with wait := .idle, resp := some .endOfProgram }) ∧
  (∀ s : State, s.fsm = .faulted →
    step s = .next { s with wait := .idle, resp := some (.fault s.faultCause) })

/-- R79, R100: after the end of a run there is one response, the terminal state's own, that every number
of further steps gives, with the same state. -/
def Obligations.TerminalForEver : Prop :=
  ∀ s : State, s.terminal = true →
    ∃ r, (s.fsm = .endOfProgram → r = .endOfProgram) ∧
      (s.fsm = .faulted → r = .fault s.faultCause) ∧
      ∀ k, stepN (k + 1) s = .next { s with wait := .idle, resp := some r }

/-- R74: a step before the program's end that neither faults nor waits answers with the index it began
at, leaves `fsm` in `RUNNING`, and its counter is the tentative next one, but for a loop instruction
that jumps, one past its entry. -/
def Obligations.CommitAdvancesCounter : Prop :=
  ∀ s t : State, s.fsm = .running → s.pc < s.image.count → step s = .next t → t.fsm ≠ .faulted →
    t.wait = .idle →
    t.resp = some (.executed s.pc) ∧ t.fsm = .running ∧
    (t.pc = (s.pc + 1) % 2 ^ s.cfg.pcW ∨
      (s.image.fetch s.pc = some 0x5B#8 ∨ s.image.fetch s.pc = some 0x5D#8) ∧
        ∃ j, s.image.jumpTarget s.pc = some j ∧ t.pc = (j + 1) % 2 ^ s.cfg.pcW)

/-- R99: a faulting step writes `fsm` and `fault_cause` and nothing else of the engine's state. What a
faulting `,` leaves of the answers is the model's reading: a byte taken is not given back (log entry
21), and a FAIL is removed as well (log entry 11). -/
def Obligations.FaultingStepWritesNoState : Prop :=
  ∀ s t : State, s.fsm = .running → step s = .next t → t.fsm = .faulted →
    t.pc = s.pc ∧ t.mp = s.mp ∧ t.tape = s.tape ∧ t.faultCause ≠ .none ∧
    t.resp = some (.fault t.faultCause) ∧ t.wait = .idle ∧
    t.cfg = s.cfg ∧ t.image = s.image ∧ t.emitted = s.emitted ∧ t.sinkReady = s.sinkReady ∧
    (s.image.fetch s.pc ≠ some 0x2C#8 → t.answers = s.answers) ∧
    (s.image.fetch s.pc = some 0x2C#8 → t.answers = s.answers.tail)

/-- R94 to R98: each cause arises exactly where its rule says, with `mp` unchanged. -/
def Obligations.FaultCausesExact : Prop :=
  ∀ s t : State, s.fsm = .running → s.faultCause = .none → step s = .next t →
    (t.faultCause = .readAccessViolation ↔
      (s.image.fetch s.pc = some 0x2E#8 ∨ s.image.fetch s.pc = some 0x5B#8 ∨
        s.image.fetch s.pc = some 0x5D#8) ∧ s.cfg.tapeLen ≤ s.mp) ∧
    (t.faultCause = .writeAccessViolation ↔
      (s.image.fetch s.pc = some 0x2B#8 ∨ s.image.fetch s.pc = some 0x2D#8 ∨
        s.image.fetch s.pc = some 0x2C#8 ∧ ∃ b rest, s.answers = .data b :: rest) ∧
      s.cfg.tapeLen ≤ s.mp) ∧
    (t.faultCause = .inputSourceFailure ↔
      s.image.fetch s.pc = some 0x2C#8 ∧ ∃ rest, s.answers = .fail :: rest) ∧
    (t.faultCause = .illegalInstruction ↔ ∃ b, s.image.fetch s.pc = some b ∧ isOpcode b = false) ∧
    (t.faultCause = .missingJumpTarget ↔
      s.mp < s.cfg.tapeLen ∧ s.image.jumpTarget s.pc = none ∧
        (s.image.fetch s.pc = some 0x5B#8 ∧ s.tape.read s.mp = 0#8 ∨
          s.image.fetch s.pc = some 0x5D#8 ∧ s.tape.read s.mp ≠ 0#8)) ∧
    (t.fsm = .faulted → t.mp = s.mp)

/-- R101: which fault a step raises where several conditions hold. -/
def Obligations.FaultOrder : Prop :=
  (∀ s t : State, s.fsm = .running → s.image.count ≤ s.pc → step s = .next t → t.fsm ≠ .faulted) ∧
  (∀ (s t : State) (b : Byte), s.fsm = .running → s.image.fetch s.pc = some b →
    isOpcode b = false → step s = .next t → t.faultCause = .illegalInstruction) ∧
  (∀ (s t : State) (rest : List InputAnswer), s.fsm = .running → s.image.fetch s.pc = some 0x2C#8 →
    s.answers = .fail :: rest → step s = .next t → t.faultCause = .inputSourceFailure) ∧
  (∀ s t : State, s.fsm = .running →
    (s.image.fetch s.pc = some 0x5B#8 ∨ s.image.fetch s.pc = some 0x5D#8) →
    s.cfg.tapeLen ≤ s.mp → step s = .next t → t.faultCause = .readAccessViolation) ∧
  (∀ s t : State, s.fsm = .running → s.mp < s.cfg.tapeLen →
    (s.image.fetch s.pc = some 0x5B#8 ∧ s.tape.read s.mp ≠ 0#8 ∨
      s.image.fetch s.pc = some 0x5D#8 ∧ s.tape.read s.mp = 0#8) →
    step s = .next t → t.fsm = .running)

/-- R29, R46: no step writes the parameters or the program image. -/
def Obligations.StepKeepsImage : Prop :=
  ∀ s t : State, step s = .next t → t.cfg = s.cfg ∧ t.image = s.image

/-- R22: only `>` and `<` write `mp`. -/
def Obligations.OnlyArrowsMovePointer : Prop :=
  ∀ s t : State, step s = .next t → t.mp ≠ s.mp →
    s.fsm = .running ∧ (s.image.fetch s.pc = some 0x3E#8 ∨ s.image.fetch s.pc = some 0x3C#8)

/-- R23, R40: a step changes at most the cell at `mp`, and only a `+`, `-` or `,` in bounds does. -/
def Obligations.TapeChangesOnlyAtPointer : Prop :=
  ∀ s t : State, s.tape.wf = true → step s = .next t →
    (∀ a, a ≠ s.mp → t.tape.read a = s.tape.read a) ∧
    (t.tape ≠ s.tape → s.fsm = .running ∧ s.mp < s.cfg.tapeLen ∧
      (s.image.fetch s.pc = some 0x2B#8 ∨ s.image.fetch s.pc = some 0x2D#8 ∨
        s.image.fetch s.pc = some 0x2C#8))

/-- R43: a step hands over at most one byte, the cell of a `.`, after all earlier ones, and consumes at
most one answer, the first, in a `,` (a FAIL too, log entry 11). -/
def Obligations.StreamsInExecutionOrder : Prop :=
  ∀ s t : State, step s = .next t →
    (t.emitted = s.emitted ∨
      s.fsm = .running ∧ s.image.fetch s.pc = some 0x2E#8 ∧ s.mp < s.cfg.tapeLen ∧
        t.emitted = s.emitted ++ [s.tape.read s.mp] ∧ t.resp = some (.executed s.pc)) ∧
    (t.answers = s.answers ∨
      s.fsm = .running ∧ s.image.fetch s.pc = some 0x2C#8 ∧ ∃ x, s.answers = x :: t.answers)

/-- In an admitted state the counter does not wrap and never passes the program's end: R77, which the
spec marks as derived. -/
def Obligations.CounterNeverWraps : Prop :=
  ∀ s : State, s.Admitted → s.fsm = .running → s.pc < s.image.count →
    (s.pc + 1) % 2 ^ s.cfg.pcW = s.pc + 1 ∧
    ∀ t, step s = .next t → t.pc ≤ t.image.count ∧
      (t.resp = some (.executed s.pc) → t.pc = s.pc + 1 ∨
        ∃ j, s.image.jumpTarget s.pc = some j ∧ t.pc = j + 1)

/-- What the step does depends on the engine, its inputs and its streams alone: not on the step in
progress, on earlier responses, or on the bytes emitted before. The fields are the model's choice (log
entries 6 and 7). -/
def Obligations.ObservationsDoNotSteer : Prop :=
  ∀ (s : State) (w : Wait) (r : Option Response) (e : List Byte),
    ∃ t u sent, step s = .next t ∧
      step { s with wait := w, resp := r, emitted := e } = .next u ∧
      t.emitted = s.emitted ++ sent ∧ u.emitted = e ++ sent ∧
      u = { t with emitted := e ++ sent }

/-! ### Invariants -/

/-- The invariants hold right after reset, for every configuration of this hardware and every
well-formed image, and of the machine's own reset state. That the latter has the configuration REF and
the empty program is the model's choice (log entries 1 and 2). -/
def Obligations.ResetInvariant : Prop :=
  (∀ (c : Config) (img : Image), c.wf = true → img.wf c = true → (State.resetOf c img).Admitted) ∧
  State.reset.Admitted

/-- Every step keeps the invariant of every engine. -/
def Obligations.StepKeepsInvariant : Prop := ∀ s t : State, s.Inv → step s = .next t → t.Inv

/-- Every act of the host keeps an admitted state admitted. -/
def Obligations.HostKeepsAdmitted : Prop :=
  ∀ (e : HostEvent) (s t : State), s.Admitted → hostStep e s = .next t → t.Admitted

/-- R97, R98 ("Unreachable from a well-formed image") and R77: whatever the host does to an engine booted with an image the loader built, it never
raises the two faults of an ill-formed image, and its counter stays within the program. -/
def Obligations.BuiltProgramsRaiseNoDefensiveFault : Prop :=
  ∀ (c : Config) (src : List Byte) (img : Image) (s t : State) (es : List HostEvent),
    build c src = .image img → boot c img = .next s → hostRun es s = .next t →
      t.faultCause ≠ .illegalInstruction ∧ t.faultCause ≠ .missingJumpTarget ∧
      (t.fsm = .running → t.pc ≤ t.image.count)

/-! ### Memory -/

/-- R34, R35: the bounds check of R33, the read and the write; a read-modify-write out of bounds is
reported as a write. -/
def Obligations.TapeAccessPrimitives : Prop :=
  ∀ (s : State) (a : Nat),
    (s.inBounds a = true ↔ a < s.cfg.tapeLen) ∧
    (a < s.cfg.tapeLen → memRead a s = .value (s.tape.read a)) ∧
    (s.cfg.tapeLen ≤ a → memRead a s = .violation .readAccessViolation) ∧
    (∀ v, s.cfg.tapeLen ≤ a → memWrite a v s = .violation .writeAccessViolation) ∧
    (∀ v, a < s.cfg.tapeLen → s.tape.wf = true →
      ∃ m, memWrite a v s = .done { s with tape := m } ∧ m.read a = v ∧
        ∀ b, b ≠ a → m.read b = s.tape.read b) ∧
    (s.cfg.tapeLen ≤ s.mp → modifyOperand s = .violation .writeAccessViolation)

/-- Two writes: the later one to a cell wins, and writes to different cells commute as data, because
a memory has one canonical form, which is the model's choice (log entry 25). -/
def Obligations.WritesOverwriteAndCommute : Prop :=
  ∀ (m : Memory) (a b : Nat) (v w : Byte), m.wf = true →
    (m.write a v).write a w = m.write a w ∧
    (a ≠ b → (m.write a v).write b w = (m.write b w).write a v)

/-- A canonical memory is determined by what its addresses read as; the form is the model's choice (log
entry 25). -/
def Obligations.EqualReadsEqualMemory : Prop :=
  ∀ m n : Memory, m.wf = true → n.wf = true → (∀ a, m.read a = n.read a) → m = n

/-! ### Instructions: results and completion -/

/-- R81: `>`. -/
def Obligations.PtrIncResult : Prop :=
  encode .ptrInc = 0x3E#8 ∧
  (∀ s : State, exec .ptrInc s = .next
    { s with mp := (s.mp + 1) % 2 ^ s.cfg.mpW, pc := (s.pc + 1) % 2 ^ s.cfg.pcW,
             wait := .idle, resp := some (.executed s.pc) }) ∧
  (∀ s : State, s.cfg.wf = true → ∃ t, exec .ptrInc s = .next t ∧
    (s.mp + 1 = s.cfg.tapeLen → t.mp = s.cfg.tapeLen ∧
      memRead t.mp t = .violation .readAccessViolation ∧
      ∀ v, memWrite t.mp v t = .violation .writeAccessViolation) ∧
    (s.mp = 2 ^ s.cfg.mpW - 1 → t.mp = 0 ∧ t.inBounds t.mp = true))

/-- R82: `<`. -/
def Obligations.PtrDecResult : Prop :=
  encode .ptrDec = 0x3C#8 ∧
  (∀ s : State, exec .ptrDec s = .next
    { s with mp := (((s.mp : Int) - 1) % ((2 ^ s.cfg.mpW : Nat) : Int)).toNat,
             pc := (s.pc + 1) % 2 ^ s.cfg.pcW, wait := .idle, resp := some (.executed s.pc) }) ∧
  (∀ s : State, s.cfg.wf = true → s.mp = 0 →
    ∃ t, exec .ptrDec s = .next t ∧ t.mp = 2 ^ s.cfg.mpW - 1 ∧
      memRead t.mp t = .violation .readAccessViolation ∧
      ∀ v, memWrite t.mp v t = .violation .writeAccessViolation)

/-- R80: `<` undoes `>` and `>` undoes `<` on the pointer, at every value, bounds or not. -/
def Obligations.PointerMovesAreInverse : Prop :=
  ∀ s : State, s.mp < 2 ^ s.cfg.mpW →
    (∃ t u, exec .ptrInc s = .next t ∧ exec .ptrDec t = .next u ∧ u.mp = s.mp) ∧
    (∃ t u, exec .ptrDec s = .next t ∧ exec .ptrInc t = .next u ∧ u.mp = s.mp)

/-- R83: a cell's two operations, modulo 256. -/
def Obligations.CellArithmetic : Prop :=
  ∀ v : Byte,
    (cellUp v).toNat = (v.toNat + 1) % 256 ∧
    ((cellDown v).toNat : Int) = ((v.toNat : Int) - 1) % 256 ∧
    cellUp 255#8 = 0#8 ∧ cellDown 0#8 = 255#8 ∧ cellDown (cellUp v) = v ∧ cellUp (cellDown v) = v

/-- R84: `+`. -/
def Obligations.CellIncResult : Prop :=
  encode .cellInc = 0x2B#8 ∧
  (∀ s : State, s.mp < s.cfg.tapeLen → exec .cellInc s = .next
    { s with tape := s.tape.write s.mp (BitVec.ofNat 8 (((s.tape.read s.mp).toNat + 1) % 256)),
             pc := (s.pc + 1) % 2 ^ s.cfg.pcW, wait := .idle, resp := some (.executed s.pc) }) ∧
  (∀ s : State, s.cfg.tapeLen ≤ s.mp → exec .cellInc s = .next
    { s with fsm := .faulted, faultCause := .writeAccessViolation, wait := .idle,
             resp := some (.fault .writeAccessViolation) })

/-- R85: `-`. -/
def Obligations.CellDecResult : Prop :=
  encode .cellDec = 0x2D#8 ∧
  (∀ s : State, s.mp < s.cfg.tapeLen → exec .cellDec s = .next
    { s with tape := s.tape.write s.mp (BitVec.ofNat 8 (((s.tape.read s.mp).toNat + 255) % 256)),
             pc := (s.pc + 1) % 2 ^ s.cfg.pcW, wait := .idle, resp := some (.executed s.pc) }) ∧
  (∀ s : State, s.cfg.tapeLen ≤ s.mp → exec .cellDec s = .next
    { s with fsm := .faulted, faultCause := .writeAccessViolation, wait := .idle,
             resp := some (.fault .writeAccessViolation) })

/-- R88: `.`. -/
def Obligations.OutputResult : Prop :=
  encode .output = 0x2E#8 ∧
  (∀ s : State, s.mp < s.cfg.tapeLen → s.sinkReady = true → exec .output s = .next
    { s with emitted := s.emitted ++ [s.tape.read s.mp],
             pc := (s.pc + 1) % 2 ^ s.cfg.pcW, wait := .idle, resp := some (.executed s.pc) }) ∧
  (∀ s : State, s.mp < s.cfg.tapeLen → s.sinkReady = false → exec .output s = .next
    { s with wait := .emit (s.tape.read s.mp), resp := none }) ∧
  (∀ s : State, s.cfg.tapeLen ≤ s.mp → exec .output s = .next
    { s with fsm := .faulted, faultCause := .readAccessViolation, wait := .idle,
             resp := some (.fault .readAccessViolation) })

/-- R89: `,`. That a FAIL is removed from the answers is the model's choice (log entry 11). -/
def Obligations.InputResult : Prop :=
  encode .input = 0x2C#8 ∧
  (∀ (s : State) (b : Byte) (rest : List InputAnswer), s.answers = .data b :: rest →
    s.mp < s.cfg.tapeLen → exec .input s = .next
      { s with answers := rest, tape := s.tape.write s.mp b,
               pc := (s.pc + 1) % 2 ^ s.cfg.pcW, wait := .idle, resp := some (.executed s.pc) }) ∧
  (∀ (s : State) (b : Byte) (rest : List InputAnswer), s.answers = .data b :: rest →
    s.cfg.tapeLen ≤ s.mp → exec .input s = .next
      { s with answers := rest, fsm := .faulted, faultCause := .writeAccessViolation, wait := .idle,
               resp := some (.fault .writeAccessViolation) }) ∧
  (∀ (s : State) (rest : List InputAnswer), s.answers = .fail :: rest → exec .input s = .next
      { s with answers := rest, fsm := .faulted, faultCause := .inputSourceFailure, wait := .idle,
               resp := some (.fault .inputSourceFailure) }) ∧
  (∀ s : State, s.answers = [] → exec .input s = .next { s with wait := .receive, resp := none })

/-- R90: `[`. -/
def Obligations.LoopStartResult : Prop :=
  encode .loopStart = 0x5B#8 ∧
  (∀ (s : State) (t : Nat), s.mp < s.cfg.tapeLen → s.tape.read s.mp = 0#8 →
    s.image.jumpTarget s.pc = some t → exec .loopStart s = .next
      { s with pc := (t + 1) % 2 ^ s.cfg.pcW, wait := .idle, resp := some (.executed s.pc) }) ∧
  (∀ s : State, s.mp < s.cfg.tapeLen → s.tape.read s.mp ≠ 0#8 → exec .loopStart s = .next
      { s with pc := (s.pc + 1) % 2 ^ s.cfg.pcW, wait := .idle, resp := some (.executed s.pc) }) ∧
  (∀ s : State, s.mp < s.cfg.tapeLen → s.tape.read s.mp = 0#8 →
    s.image.jumpTarget s.pc = none → exec .loopStart s = .next
      { s with fsm := .faulted, faultCause := .missingJumpTarget, wait := .idle,
               resp := some (.fault .missingJumpTarget) }) ∧
  (∀ s : State, s.cfg.tapeLen ≤ s.mp → exec .loopStart s = .next
      { s with fsm := .faulted, faultCause := .readAccessViolation, wait := .idle,
               resp := some (.fault .readAccessViolation) })

/-- R91: `]`. -/
def Obligations.LoopEndResult : Prop :=
  encode .loopEnd = 0x5D#8 ∧
  (∀ (s : State) (t : Nat), s.mp < s.cfg.tapeLen → s.tape.read s.mp ≠ 0#8 →
    s.image.jumpTarget s.pc = some t → exec .loopEnd s = .next
      { s with pc := (t + 1) % 2 ^ s.cfg.pcW, wait := .idle, resp := some (.executed s.pc) }) ∧
  (∀ s : State, s.mp < s.cfg.tapeLen → s.tape.read s.mp = 0#8 → exec .loopEnd s = .next
      { s with pc := (s.pc + 1) % 2 ^ s.cfg.pcW, wait := .idle, resp := some (.executed s.pc) }) ∧
  (∀ s : State, s.mp < s.cfg.tapeLen → s.tape.read s.mp ≠ 0#8 →
    s.image.jumpTarget s.pc = none → exec .loopEnd s = .next
      { s with fsm := .faulted, faultCause := .missingJumpTarget, wait := .idle,
               resp := some (.fault .missingJumpTarget) }) ∧
  (∀ s : State, s.cfg.tapeLen ≤ s.mp → exec .loopEnd s = .next
      { s with fsm := .faulted, faultCause := .readAccessViolation, wait := .idle,
               resp := some (.fault .readAccessViolation) })

/-- R92, which the spec marks as derived: at either bracket of a matched pair, in an admitted state in bounds, a zero cell continues
past the `]` and a non-zero cell continues at the first instruction of the body. -/
def Obligations.LoopPairContinues : Prop :=
  ∀ (s : State) (i j : Nat), s.Admitted → s.fsm = .running → s.mp < s.cfg.tapeLen →
    s.image.fetch i = some 0x5B#8 → s.image.jumpTarget i = some j → s.pc = i ∨ s.pc = j →
    step s = .next { s with pc := if s.tape.read s.mp = 0#8 then j + 1 else i + 1,
                            wait := .idle, resp := some (.executed s.pc) }

/-! ### Instructions: frames -/

/-- Frame of `>` and `<`: only `mp`, the counter and the step's bookkeeping change. -/
def Obligations.FramePointerMoves : Prop :=
  ∀ (i : Instr) (s t : State), i = .ptrInc ∨ i = .ptrDec → exec i s = .next t →
    t.cfg = s.cfg ∧ t.image = s.image ∧ t.fsm = s.fsm ∧ t.faultCause = s.faultCause ∧
    t.answers = s.answers ∧ t.sinkReady = s.sinkReady ∧ t.emitted = s.emitted ∧
    ∀ a, t.tape.read a = s.tape.read a

/-- Frame of `+` and `-`: in bounds they store to the cell at `mp` and to no other; out of bounds they
store nothing and only the fault registers change. -/
def Obligations.FrameCellArithmetic : Prop :=
  ∀ (i : Instr) (s t : State), i = .cellInc ∨ i = .cellDec → s.tape.wf = true →
    exec i s = .next t →
    t.cfg = s.cfg ∧ t.image = s.image ∧ t.mp = s.mp ∧ t.answers = s.answers ∧
    t.sinkReady = s.sinkReady ∧ t.emitted = s.emitted ∧
    (∀ a, s.mp = a → ∀ b, b ≠ a → t.tape.read b = s.tape.read b) ∧
    (s.mp < s.cfg.tapeLen → t.fsm = s.fsm ∧ t.faultCause = s.faultCause) ∧
    (s.cfg.tapeLen ≤ s.mp → t.pc = s.pc ∧ ∀ b, t.tape.read b = s.tape.read b)

/-- Frame of `.`, `[` and `]`: they store nothing, whichever path they take. -/
def Obligations.FrameReaders : Prop :=
  ∀ (i : Instr) (s t : State), i = .output ∨ i = .loopStart ∨ i = .loopEnd → exec i s = .next t →
    t.cfg = s.cfg ∧ t.image = s.image ∧ t.mp = s.mp ∧ t.answers = s.answers ∧
    t.sinkReady = s.sinkReady ∧ (i ≠ .output → t.emitted = s.emitted) ∧
    (t.fsm = .faulted ∨ t.fsm = s.fsm ∧ t.faultCause = s.faultCause) ∧
    ∀ a, t.tape.read a = s.tape.read a

/-- Frame of `,`: it stores to the cell at `mp` and to no other; while it waits, or when it faults, it
stores nothing. -/
def Obligations.FrameInput : Prop :=
  ∀ s t : State, s.tape.wf = true → exec .input s = .next t →
    t.cfg = s.cfg ∧ t.image = s.image ∧ t.mp = s.mp ∧ t.sinkReady = s.sinkReady ∧
    t.emitted = s.emitted ∧ (t.fsm = .faulted ∨ t.fsm = s.fsm ∧ t.faultCause = s.faultCause) ∧
    (∀ a, s.mp = a → ∀ b, b ≠ a → t.tape.read b = s.tape.read b) ∧
    (t.resp ≠ some (.executed s.pc) → t.pc = s.pc ∧ ∀ b, t.tape.read b = s.tape.read b)

/-! ### The host: waits, reset, session, ports -/

/-- R116, with a further call of `step` as a further look at the source, the model's reading (log entry
7), and overlapping requests refused (log entry 10): a `,` with no answer holds with nothing written, through any number of further calls; the
answer, when it comes, completes the step as if it had been there at once. -/
def Obligations.InputWaitHolds : Prop :=
  ∀ s : State, s.fsm = .running → s.image.fetch s.pc = some 0x2C#8 → s.answers = [] →
    ∃ t, t = { s with wait := .receive, resp := none } ∧ t.inReq = true ∧
      (∀ k, stepN (k + 1) s = .next t) ∧
      hostStep .request t = .refused .overlappingRequest ∧
      (∀ taking, hostStep (.sink taking) t = .next { t with sinkReady := taking }) ∧
      ∀ x, hostStep (.answer x) t = step { s with answers := [x] }

/-- R117, with a further call of `step` as a further look at the sink, the model's reading (log entry 7),
overlapping requests refused (log entry 10), and an answer that no request waits for dropped (log entry
12): a `.` whose sink does not take the byte holds with nothing written, offering the cell's
value; the sink taking it completes the step as if it had been taken at once. -/
def Obligations.OutputWaitHolds : Prop :=
  ∀ s : State, s.fsm = .running → s.image.fetch s.pc = some 0x2E#8 → s.mp < s.cfg.tapeLen →
    s.sinkReady = false →
    ∃ t, t = { s with wait := .emit (s.tape.read s.mp), resp := none } ∧ t.outValid = true ∧
      t.outData = some (s.tape.read s.mp) ∧
      (∀ k, stepN (k + 1) s = .next t) ∧
      hostStep .request t = .refused .overlappingRequest ∧
      (∀ x, hostStep (.answer x) t = .next t) ∧
      hostStep (.sink true) t = step { s with sinkReady := true }

/-- R110: reset, in any state, gives every piece of engine state its reset value and keeps the image and
the parameters; nothing else the host does leaves a terminal state. -/
def Obligations.ResetInAnyState : Prop :=
  (∀ s : State, ∃ t, hostStep .reset s = .next t ∧
    t.pc = 0 ∧ t.mp = 0 ∧ (∀ a, t.tape.read a = 0#8) ∧ t.fsm = .running ∧ t.faultCause = .none ∧
    t.wait = .idle ∧ t.image = s.image ∧ t.cfg = s.cfg) ∧
  (∀ (e : HostEvent) (s t : State), s.terminal = true → e ≠ .reset → hostStep e s = .next t →
    t.fsm = s.fsm ∧ t.faultCause = s.faultCause ∧ t.pc = s.pc ∧ t.mp = s.mp ∧ t.tape = s.tape)

/-- R30: the engine's registers and the tape right after reset. -/
def Obligations.ResetValues : Prop :=
  ∀ (c : Config) (img : Image),
    (State.resetOf c img).pc = 0 ∧ (State.resetOf c img).mp = 0 ∧
    (∀ a, (State.resetOf c img).tape.read a = 0#8) ∧ (State.resetOf c img).fsm = .running ∧
    (State.resetOf c img).faultCause = .none ∧ (State.resetOf c img).wait = .idle

/-- R119: a reset during a wait withdraws the request or the offer: no answer is consumed, no byte is
emitted, no response is returned, and an answer that arrives afterwards belongs to no step. -/
def Obligations.ResetDuringWait : Prop :=
  ∀ s : State, s.wait ≠ .idle →
    ∃ t, hostStep .reset s = .next t ∧ t.answers = s.answers ∧ t.emitted = s.emitted ∧
      t.resp = none ∧ t.inReq = false ∧ t.outValid = false ∧
      ∀ x, hostStep (.answer x) t = .next t

/-- R114: while a session runs, no act of the host changes the image, and placing one is refused. -/
def Obligations.ImageFixedDuringSession : Prop :=
  (∀ (img : Image) (s : State), s.fsm = .running →
    hostStep (.place img) s = .refused .imageChangedInSession) ∧
  (∀ (e : HostEvent) (s t : State), s.fsm = .running → hostStep e s = .next t →
    t.image = s.image ∧ t.cfg = s.cfg)

/-- R78, R112: what boot starts, what it refuses, and that a loader error starts nothing; that the
refusal stands at boot is the model's reading (log entries 8 and 9). -/
def Obligations.BootAdmitsWellFormedOnly : Prop :=
  (∀ (c : Config) (img : Image) (s : State), boot c img = .next s ↔
    c.wf = true ∧ img.wf c = true ∧ s = State.resetOf c img) ∧
  (∀ (c : Config) (img : Image), c.wf = false → boot c img = .refused .configNotAdmitted) ∧
  (∀ (c : Config) (img : Image), c.wf = true → img.wf c = false →
    boot c img = .refused .imageNotWellFormed) ∧
  (∀ (c : Config) (src : List Byte) (e : LoadError), build c src = .error e →
    bootSource c src = .loadFailed e)

/-- A configuration of this hardware and a source the loader accepts always start an engine. -/
def Obligations.BuiltProgramsBoot : Prop :=
  ∀ (c : Config) (src : List Byte) (img : Image), c.wf = true → build c src = .image img →
    bootSource c src = .engine (.next (State.resetOf c img))

/-- R28: the read port, open exactly while no step is in progress; that it then answers none is the
model's reading (log entry 22). -/
def Obligations.HostReadPort : Prop :=
  ∀ s : State,
    (s.wait = .idle →
      s.hostRead .pc = some s.pc ∧ s.hostRead .mp = some s.mp ∧
      (∀ a, a < s.cfg.tapeLen → s.hostRead (.cell a) = some (s.tape.read a).toNat) ∧
      (∀ a, s.cfg.tapeLen ≤ a → s.hostRead (.cell a) = none) ∧
      s.hostRead .fsm = some s.fsm.code.toNat ∧
      s.hostRead .faultCause = some s.faultCause.code.toNat) ∧
    (s.wait ≠ .idle → ∀ q, s.hostRead q = none)

/-- R66: the response's three fields, zero where the kind lists no payload. -/
def Obligations.ResponseEncoding : Prop :=
  (∀ i, (Response.executed i).kind = 0b00#2 ∧ (Response.executed i).index = i ∧
    (Response.executed i).cause = 0#3) ∧
  (Response.endOfProgram.kind = 0b01#2 ∧ Response.endOfProgram.index = 0 ∧
    Response.endOfProgram.cause = 0#3) ∧
  (∀ c, (Response.fault c).kind = 0b10#2 ∧ (Response.fault c).index = 0 ∧
    (Response.fault c).cause = c.code) ∧
  (∀ r : Response, r.kind ≠ 0b11#2)

/-- R24, R93: the codes of the two status registers; no two causes and no two states share one, and the
reserved values are never held. -/
def Obligations.StatusCodes : Prop :=
  (Fsm.running.code = 0b00#2 ∧ Fsm.endOfProgram.code = 0b01#2 ∧ Fsm.faulted.code = 0b10#2) ∧
  (FaultCause.none.code = 0#3 ∧ FaultCause.readAccessViolation.code = 1#3 ∧
    FaultCause.writeAccessViolation.code = 2#3 ∧ FaultCause.inputSourceFailure.code = 3#3 ∧
    FaultCause.illegalInstruction.code = 4#3 ∧ FaultCause.missingJumpTarget.code = 5#3) ∧
  (∀ f g : Fsm, f.code = g.code → f = g) ∧ (∀ c d : FaultCause, c.code = d.code → c = d) ∧
  (∀ f : Fsm, f.code ≠ 0b11#2) ∧ (∀ c : FaultCause, c.code ≠ 6#3 ∧ c.code ≠ 7#3)

/-- R48, R107: an act on engine `k` leaves every other engine as it is and does not depend on any;
engines as a list are the model's choice (log entry 18). -/
def Obligations.EnginesIndependent : Prop :=
  ∀ (k : Nat) (e : HostEvent) (es fs : List State),
    (enginesStep k e es).length = es.length ∧
    (∀ j, j ≠ k → (enginesStep k e es)[j]? = es[j]?) ∧
    (es[k]? = fs[k]? → (enginesStep k e es)[k]? = (enginesStep k e fs)[k]?)

end Slice0Statements
end

