-- ==== Sys2Proof/Laws/Decode.lean ====
section
/-! SUPPORT. What the decoder answers, said once. -/

namespace Sys2Proof

/-- The rows of the opcode map are the encoder's, and a byte matches a row on all eight bits only. -/
theorem OpcodeRow.matchesByte_full (p b : Byte) (i : Instr) :
    OpcodeRow.matchesByte { pattern := p, mask := 0xFF#8, instr := i } b = (b == p) := by
  have h : b &&& 255#8 = b := BitVec.and_allOnes
  simp [OpcodeRow.matchesByte, h]

theorem decode_encode_of (i : Instr) : decode (encode i) = .instr i := by
  cases i <;> rfl

/-- Each row's pattern is its instruction's opcode, and its mask compares all eight bits. -/
theorem opcodeMap_row {r : OpcodeRow} (h : r ∈ opcodeMap) :
    r.pattern = encode r.instr ∧ r.mask = 0xFF#8 := by
  simp only [opcodeMap, List.mem_cons, List.not_mem_nil, or_false] at h
  rcases h with rfl | rfl | rfl | rfl | rfl | rfl | rfl | rfl <;> exact ⟨rfl, rfl⟩

/-- A byte that decodes to `i` is the opcode of `i`. -/
theorem encode_of_decode {b : Byte} {i : Instr} (h : decode b = .instr i) : encode i = b := by
  unfold decode at h
  split at h
  · rename_i r hr
    cases h
    obtain ⟨hp, hm⟩ := opcodeMap_row (List.mem_of_find?_eq_some hr)
    have hb : r.matchesByte b = true := by simpa using List.find?_some hr
    have hfull := OpcodeRow.matchesByte_full r.pattern b r.instr
    rw [← hm] at hfull
    rw [← hp]
    exact (beq_iff_eq.1 (hfull ▸ hb)).symm
  · cases h

theorem decode_eq_instr_iff (b : Byte) (i : Instr) : decode b = .instr i ↔ b = encode i :=
  ⟨fun h => (encode_of_decode h).symm, fun h => h ▸ decode_encode_of i⟩

/-- An illegal byte is named as it stands. -/
theorem decode_eq_illegal {b c : Byte} (h : decode b = .illegal c) : c = b := by
  unfold decode at h
  split at h
  · cases h
  · cases h; rfl

theorem isOpcode_iff (b : Byte) : isOpcode b = true ↔ ∃ i, decode b = .instr i := by
  unfold isOpcode
  cases decode b <;> simp

end Sys2Proof
end

