-- ==== Sys2Proof/Laws/Memory.lean ====
section
/-! SUPPORT. The tape's laws: read after write, and that a write keeps the canonical form and the
bound. -/

namespace Sys2Proof.Machine

theorem Memory.read_nil (a : Nat) : Memory.read [] a = Memory.unlisted := rfl

theorem Memory.wf_nil : Memory.wf [] = true := rfl

theorem Memory.below_nil (n : Nat) : Memory.below n [] = true := rfl

theorem Memory.wf_cons_iff (a : Nat) (v : Byte) (rest : Memory) :
    Memory.wf ((a, v) :: rest) = true ↔
      v ≠ Memory.unlisted ∧ (∀ c ∈ rest, a < c.1) ∧ Memory.wf rest = true := by
  simp [Memory.wf, and_assoc]

/-- An address below every listed one reads as unlisted. -/
theorem Memory.read_of_lt (m : Memory) (a : Nat) (h : ∀ c ∈ m, a < c.1) :
    m.read a = Memory.unlisted := by
  induction m with
  | nil => rfl
  | cons c rest ih =>
    have hne : a ≠ c.1 := Nat.ne_of_lt (h c (by simp))
    simp [Memory.read, hne, ih (fun d hd => h d (by simp [hd]))]

/-- Every listed address is past the head of a canonical memory. -/
theorem Memory.wf_tail {a : Nat} {v : Byte} {rest : Memory} (h : Memory.wf ((a, v) :: rest) = true) :
    Memory.wf rest = true := ((Memory.wf_cons_iff a v rest).1 h).2.2

theorem Memory.mem_cons {c : Host.Cell} {a : Nat} {v : Byte} {m : Memory}
    (h : c ∈ Memory.cons a v m) : c = (a, v) ∨ c ∈ m := by
  unfold Memory.cons at h
  split at h
  · exact .inr h
  · simpa using h

theorem Memory.mem_write {c : Host.Cell} {m : Memory} {a : Nat} {v : Byte}
    (h : c ∈ m.write a v) : c = (a, v) ∨ c ∈ m := by
  induction m with
  | nil => exact Memory.mem_cons h
  | cons d rest ih =>
    obtain ⟨b, w⟩ := d
    simp only [Memory.write] at h
    split at h
    · exact Memory.mem_cons h
    · split at h
      · rcases Memory.mem_cons h with h | h
        · exact .inl h
        · exact .inr (by simp [h])
      · rcases List.mem_cons.1 h with h | h
        · exact .inr (by simp [h])
        · rcases ih h with h | h
          · exact .inl h
          · exact .inr (by simp [h])

theorem Memory.wf_cons_of (a : Nat) (v : Byte) (m : Memory) (h : ∀ c ∈ m, a < c.1)
    (hm : m.wf = true) : (Memory.cons a v m).wf = true := by
  unfold Memory.cons
  split
  · exact hm
  · exact (Memory.wf_cons_iff a v m).2 ⟨‹_›, h, hm⟩

/-- A write keeps the canonical form. -/
theorem Memory.write_wf (m : Memory) (a : Nat) (v : Byte) (h : m.wf = true) :
    (m.write a v).wf = true := by
  induction m with
  | nil => exact Memory.wf_cons_of a v [] (by simp) rfl
  | cons d rest ih =>
    obtain ⟨b, w⟩ := d
    obtain ⟨hw, hb, hr⟩ := (Memory.wf_cons_iff b w rest).1 h
    simp only [Memory.write]
    split
    · rename_i hab
      refine Memory.wf_cons_of a v _ (fun c hc => ?_) h
      rcases List.mem_cons.1 hc with rfl | hc
      · exact hab
      · exact Nat.lt_trans hab (hb c hc)
    · rename_i hab
      split
      · rename_i heq
        exact Memory.wf_cons_of a v rest (fun c hc => heq ▸ hb c hc) hr
      · rename_i hne
        refine (Memory.wf_cons_iff b w _).2 ⟨hw, fun c hc => ?_, ih hr⟩
        rcases Memory.mem_write hc with rfl | hc
        · simp only; omega
        · exact hb c hc

/-- A write below the bound keeps every listed address below it. -/
theorem Memory.write_below (n : Nat) (m : Memory) (a : Nat) (v : Byte) (ha : a < n)
    (h : m.below n = true) : (m.write a v).below n = true := by
  simp only [Memory.below, List.all_eq_true, decide_eq_true_eq] at h ⊢
  intro c hc
  rcases Memory.mem_write hc with rfl | hc
  · exact ha
  · exact h c hc

theorem Memory.read_cons (m : Memory) (a b : Nat) (v : Byte) (h : ∀ c ∈ m, a < c.1) :
    (Memory.cons a v m).read b = if b = a then v else m.read b := by
  unfold Memory.cons
  split
  · rename_i hv
    split
    · rename_i hb; subst hb; rw [hv]; exact Memory.read_of_lt m _ h
    · rfl
  · rfl

/-- Reading after a write: the value written there, the old value everywhere else. -/
theorem Memory.read_write (m : Memory) (a b : Nat) (v : Byte) (h : m.wf = true) :
    (m.write a v).read b = if b = a then v else m.read b := by
  induction m with
  | nil => exact Memory.read_cons [] a b v (by simp)
  | cons d rest ih =>
    obtain ⟨c, w⟩ := d
    obtain ⟨_, hc, hr⟩ := (Memory.wf_cons_iff c w rest).1 h
    simp only [Memory.write]
    split
    · rename_i hac
      refine Memory.read_cons _ a b v (fun e he => ?_)
      rcases List.mem_cons.1 he with rfl | he
      · exact hac
      · exact Nat.lt_trans hac (hc e he)
    · split
      · rename_i hac
        subst hac
        rw [Memory.read_cons rest a b v hc]
        simp only [Memory.read]
        split <;> rfl
      · rename_i hne
        simp only [Memory.read, ih hr]
        split
        · rename_i hb; subst hb; simp [Ne.symm hne]
        · rfl

end Sys2Proof.Machine
end

