-- ==== Sys2Proof/Laws/State.lean ====
section
/-! SUPPORT. One lemma per field per update of State, true by unfolding the update once. -/

namespace Sys2Proof.Machine

/-! ### `State.setMp` -/

@[simp] theorem State.setMp_cfg (v : Nat) (s : State) : (s.setMp v).cfg = s.cfg := rfl
@[simp] theorem State.setMp_image (v : Nat) (s : State) : (s.setMp v).image = s.image := rfl
@[simp] theorem State.setMp_pc (v : Nat) (s : State) : (s.setMp v).pc = s.pc := rfl
@[simp] theorem State.setMp_mp (v : Nat) (s : State) : (s.setMp v).mp = v := rfl
@[simp] theorem State.setMp_tape (v : Nat) (s : State) : (s.setMp v).tape = s.tape := rfl
@[simp] theorem State.setMp_fsm (v : Nat) (s : State) : (s.setMp v).fsm = s.fsm := rfl
@[simp] theorem State.setMp_faultCause (v : Nat) (s : State) : (s.setMp v).faultCause = s.faultCause := rfl
@[simp] theorem State.setMp_wait (v : Nat) (s : State) : (s.setMp v).wait = s.wait := rfl
@[simp] theorem State.setMp_resp (v : Nat) (s : State) : (s.setMp v).resp = s.resp := rfl
@[simp] theorem State.setMp_answers (v : Nat) (s : State) : (s.setMp v).answers = s.answers := rfl
@[simp] theorem State.setMp_sinkReady (v : Nat) (s : State) : (s.setMp v).sinkReady = s.sinkReady := rfl
@[simp] theorem State.setMp_emitted (v : Nat) (s : State) : (s.setMp v).emitted = s.emitted := rfl

/-! ### `State.setCell` -/

@[simp] theorem State.setCell_cfg (a : Nat) (v : Byte) (s : State) : (s.setCell a v).cfg = s.cfg := rfl
@[simp] theorem State.setCell_image (a : Nat) (v : Byte) (s : State) : (s.setCell a v).image = s.image := rfl
@[simp] theorem State.setCell_pc (a : Nat) (v : Byte) (s : State) : (s.setCell a v).pc = s.pc := rfl
@[simp] theorem State.setCell_mp (a : Nat) (v : Byte) (s : State) : (s.setCell a v).mp = s.mp := rfl
@[simp] theorem State.setCell_tape (a : Nat) (v : Byte) (s : State) : (s.setCell a v).tape = s.tape.write a v := rfl
@[simp] theorem State.setCell_fsm (a : Nat) (v : Byte) (s : State) : (s.setCell a v).fsm = s.fsm := rfl
@[simp] theorem State.setCell_faultCause (a : Nat) (v : Byte) (s : State) : (s.setCell a v).faultCause = s.faultCause := rfl
@[simp] theorem State.setCell_wait (a : Nat) (v : Byte) (s : State) : (s.setCell a v).wait = s.wait := rfl
@[simp] theorem State.setCell_resp (a : Nat) (v : Byte) (s : State) : (s.setCell a v).resp = s.resp := rfl
@[simp] theorem State.setCell_answers (a : Nat) (v : Byte) (s : State) : (s.setCell a v).answers = s.answers := rfl
@[simp] theorem State.setCell_sinkReady (a : Nat) (v : Byte) (s : State) : (s.setCell a v).sinkReady = s.sinkReady := rfl
@[simp] theorem State.setCell_emitted (a : Nat) (v : Byte) (s : State) : (s.setCell a v).emitted = s.emitted := rfl

/-! ### `State.dropAnswer` -/

@[simp] theorem State.dropAnswer_cfg (s : State) : (s.dropAnswer).cfg = s.cfg := rfl
@[simp] theorem State.dropAnswer_image (s : State) : (s.dropAnswer).image = s.image := rfl
@[simp] theorem State.dropAnswer_pc (s : State) : (s.dropAnswer).pc = s.pc := rfl
@[simp] theorem State.dropAnswer_mp (s : State) : (s.dropAnswer).mp = s.mp := rfl
@[simp] theorem State.dropAnswer_tape (s : State) : (s.dropAnswer).tape = s.tape := rfl
@[simp] theorem State.dropAnswer_fsm (s : State) : (s.dropAnswer).fsm = s.fsm := rfl
@[simp] theorem State.dropAnswer_faultCause (s : State) : (s.dropAnswer).faultCause = s.faultCause := rfl
@[simp] theorem State.dropAnswer_wait (s : State) : (s.dropAnswer).wait = s.wait := rfl
@[simp] theorem State.dropAnswer_resp (s : State) : (s.dropAnswer).resp = s.resp := rfl
@[simp] theorem State.dropAnswer_answers (s : State) : (s.dropAnswer).answers = s.answers.tail := rfl
@[simp] theorem State.dropAnswer_sinkReady (s : State) : (s.dropAnswer).sinkReady = s.sinkReady := rfl
@[simp] theorem State.dropAnswer_emitted (s : State) : (s.dropAnswer).emitted = s.emitted := rfl

/-! ### `State.addAnswer` -/

@[simp] theorem State.addAnswer_cfg (x : InputAnswer) (s : State) : (s.addAnswer x).cfg = s.cfg := rfl
@[simp] theorem State.addAnswer_image (x : InputAnswer) (s : State) : (s.addAnswer x).image = s.image := rfl
@[simp] theorem State.addAnswer_pc (x : InputAnswer) (s : State) : (s.addAnswer x).pc = s.pc := rfl
@[simp] theorem State.addAnswer_mp (x : InputAnswer) (s : State) : (s.addAnswer x).mp = s.mp := rfl
@[simp] theorem State.addAnswer_tape (x : InputAnswer) (s : State) : (s.addAnswer x).tape = s.tape := rfl
@[simp] theorem State.addAnswer_fsm (x : InputAnswer) (s : State) : (s.addAnswer x).fsm = s.fsm := rfl
@[simp] theorem State.addAnswer_faultCause (x : InputAnswer) (s : State) : (s.addAnswer x).faultCause = s.faultCause := rfl
@[simp] theorem State.addAnswer_wait (x : InputAnswer) (s : State) : (s.addAnswer x).wait = s.wait := rfl
@[simp] theorem State.addAnswer_resp (x : InputAnswer) (s : State) : (s.addAnswer x).resp = s.resp := rfl
@[simp] theorem State.addAnswer_answers (x : InputAnswer) (s : State) : (s.addAnswer x).answers = s.answers ++ [x] := rfl
@[simp] theorem State.addAnswer_sinkReady (x : InputAnswer) (s : State) : (s.addAnswer x).sinkReady = s.sinkReady := rfl
@[simp] theorem State.addAnswer_emitted (x : InputAnswer) (s : State) : (s.addAnswer x).emitted = s.emitted := rfl

/-! ### `State.setSinkReady` -/

@[simp] theorem State.setSinkReady_cfg (r : Bool) (s : State) : (s.setSinkReady r).cfg = s.cfg := rfl
@[simp] theorem State.setSinkReady_image (r : Bool) (s : State) : (s.setSinkReady r).image = s.image := rfl
@[simp] theorem State.setSinkReady_pc (r : Bool) (s : State) : (s.setSinkReady r).pc = s.pc := rfl
@[simp] theorem State.setSinkReady_mp (r : Bool) (s : State) : (s.setSinkReady r).mp = s.mp := rfl
@[simp] theorem State.setSinkReady_tape (r : Bool) (s : State) : (s.setSinkReady r).tape = s.tape := rfl
@[simp] theorem State.setSinkReady_fsm (r : Bool) (s : State) : (s.setSinkReady r).fsm = s.fsm := rfl
@[simp] theorem State.setSinkReady_faultCause (r : Bool) (s : State) : (s.setSinkReady r).faultCause = s.faultCause := rfl
@[simp] theorem State.setSinkReady_wait (r : Bool) (s : State) : (s.setSinkReady r).wait = s.wait := rfl
@[simp] theorem State.setSinkReady_resp (r : Bool) (s : State) : (s.setSinkReady r).resp = s.resp := rfl
@[simp] theorem State.setSinkReady_answers (r : Bool) (s : State) : (s.setSinkReady r).answers = s.answers := rfl
@[simp] theorem State.setSinkReady_sinkReady (r : Bool) (s : State) : (s.setSinkReady r).sinkReady = r := rfl
@[simp] theorem State.setSinkReady_emitted (r : Bool) (s : State) : (s.setSinkReady r).emitted = s.emitted := rfl

/-! ### `State.handOver` -/

@[simp] theorem State.handOver_cfg (b : Byte) (s : State) : (s.handOver b).cfg = s.cfg := rfl
@[simp] theorem State.handOver_image (b : Byte) (s : State) : (s.handOver b).image = s.image := rfl
@[simp] theorem State.handOver_pc (b : Byte) (s : State) : (s.handOver b).pc = s.pc := rfl
@[simp] theorem State.handOver_mp (b : Byte) (s : State) : (s.handOver b).mp = s.mp := rfl
@[simp] theorem State.handOver_tape (b : Byte) (s : State) : (s.handOver b).tape = s.tape := rfl
@[simp] theorem State.handOver_fsm (b : Byte) (s : State) : (s.handOver b).fsm = s.fsm := rfl
@[simp] theorem State.handOver_faultCause (b : Byte) (s : State) : (s.handOver b).faultCause = s.faultCause := rfl
@[simp] theorem State.handOver_wait (b : Byte) (s : State) : (s.handOver b).wait = s.wait := rfl
@[simp] theorem State.handOver_resp (b : Byte) (s : State) : (s.handOver b).resp = s.resp := rfl
@[simp] theorem State.handOver_answers (b : Byte) (s : State) : (s.handOver b).answers = s.answers := rfl
@[simp] theorem State.handOver_sinkReady (b : Byte) (s : State) : (s.handOver b).sinkReady = s.sinkReady := rfl
@[simp] theorem State.handOver_emitted (b : Byte) (s : State) : (s.handOver b).emitted = s.emitted ++ [b] := rfl

/-! ### `State.respond` -/

@[simp] theorem State.respond_cfg (r : Response) (s : State) : (s.respond r).cfg = s.cfg := rfl
@[simp] theorem State.respond_image (r : Response) (s : State) : (s.respond r).image = s.image := rfl
@[simp] theorem State.respond_pc (r : Response) (s : State) : (s.respond r).pc = s.pc := rfl
@[simp] theorem State.respond_mp (r : Response) (s : State) : (s.respond r).mp = s.mp := rfl
@[simp] theorem State.respond_tape (r : Response) (s : State) : (s.respond r).tape = s.tape := rfl
@[simp] theorem State.respond_fsm (r : Response) (s : State) : (s.respond r).fsm = s.fsm := rfl
@[simp] theorem State.respond_faultCause (r : Response) (s : State) : (s.respond r).faultCause = s.faultCause := rfl
@[simp] theorem State.respond_wait (r : Response) (s : State) : (s.respond r).wait = .idle := rfl
@[simp] theorem State.respond_resp (r : Response) (s : State) : (s.respond r).resp = some r := rfl
@[simp] theorem State.respond_answers (r : Response) (s : State) : (s.respond r).answers = s.answers := rfl
@[simp] theorem State.respond_sinkReady (r : Response) (s : State) : (s.respond r).sinkReady = s.sinkReady := rfl
@[simp] theorem State.respond_emitted (r : Response) (s : State) : (s.respond r).emitted = s.emitted := rfl

/-! ### `State.holdIn` -/

@[simp] theorem State.holdIn_cfg (w : Wait) (s : State) : (s.holdIn w).cfg = s.cfg := rfl
@[simp] theorem State.holdIn_image (w : Wait) (s : State) : (s.holdIn w).image = s.image := rfl
@[simp] theorem State.holdIn_pc (w : Wait) (s : State) : (s.holdIn w).pc = s.pc := rfl
@[simp] theorem State.holdIn_mp (w : Wait) (s : State) : (s.holdIn w).mp = s.mp := rfl
@[simp] theorem State.holdIn_tape (w : Wait) (s : State) : (s.holdIn w).tape = s.tape := rfl
@[simp] theorem State.holdIn_fsm (w : Wait) (s : State) : (s.holdIn w).fsm = s.fsm := rfl
@[simp] theorem State.holdIn_faultCause (w : Wait) (s : State) : (s.holdIn w).faultCause = s.faultCause := rfl
@[simp] theorem State.holdIn_wait (w : Wait) (s : State) : (s.holdIn w).wait = w := rfl
@[simp] theorem State.holdIn_resp (w : Wait) (s : State) : (s.holdIn w).resp = none := rfl
@[simp] theorem State.holdIn_answers (w : Wait) (s : State) : (s.holdIn w).answers = s.answers := rfl
@[simp] theorem State.holdIn_sinkReady (w : Wait) (s : State) : (s.holdIn w).sinkReady = s.sinkReady := rfl
@[simp] theorem State.holdIn_emitted (w : Wait) (s : State) : (s.holdIn w).emitted = s.emitted := rfl

/-! ### `State.advance` -/

@[simp] theorem State.advance_cfg (next : Nat) (s : State) : (s.advance next).cfg = s.cfg := rfl
@[simp] theorem State.advance_image (next : Nat) (s : State) : (s.advance next).image = s.image := rfl
@[simp] theorem State.advance_pc (next : Nat) (s : State) : (s.advance next).pc = next := rfl
@[simp] theorem State.advance_mp (next : Nat) (s : State) : (s.advance next).mp = s.mp := rfl
@[simp] theorem State.advance_tape (next : Nat) (s : State) : (s.advance next).tape = s.tape := rfl
@[simp] theorem State.advance_fsm (next : Nat) (s : State) : (s.advance next).fsm = s.fsm := rfl
@[simp] theorem State.advance_faultCause (next : Nat) (s : State) : (s.advance next).faultCause = s.faultCause := rfl
@[simp] theorem State.advance_wait (next : Nat) (s : State) : (s.advance next).wait = .idle := rfl
@[simp] theorem State.advance_resp (next : Nat) (s : State) : (s.advance next).resp = some (.executed s.pc) := rfl
@[simp] theorem State.advance_answers (next : Nat) (s : State) : (s.advance next).answers = s.answers := rfl
@[simp] theorem State.advance_sinkReady (next : Nat) (s : State) : (s.advance next).sinkReady = s.sinkReady := rfl
@[simp] theorem State.advance_emitted (next : Nat) (s : State) : (s.advance next).emitted = s.emitted := rfl

/-! ### `State.enterFault` -/

@[simp] theorem State.enterFault_cfg (c : FaultCause) (s : State) : (s.enterFault c).cfg = s.cfg := rfl
@[simp] theorem State.enterFault_image (c : FaultCause) (s : State) : (s.enterFault c).image = s.image := rfl
@[simp] theorem State.enterFault_pc (c : FaultCause) (s : State) : (s.enterFault c).pc = s.pc := rfl
@[simp] theorem State.enterFault_mp (c : FaultCause) (s : State) : (s.enterFault c).mp = s.mp := rfl
@[simp] theorem State.enterFault_tape (c : FaultCause) (s : State) : (s.enterFault c).tape = s.tape := rfl
@[simp] theorem State.enterFault_fsm (c : FaultCause) (s : State) : (s.enterFault c).fsm = .faulted := rfl
@[simp] theorem State.enterFault_faultCause (c : FaultCause) (s : State) : (s.enterFault c).faultCause = c := rfl
@[simp] theorem State.enterFault_wait (c : FaultCause) (s : State) : (s.enterFault c).wait = .idle := rfl
@[simp] theorem State.enterFault_resp (c : FaultCause) (s : State) : (s.enterFault c).resp = some (.fault c) := rfl
@[simp] theorem State.enterFault_answers (c : FaultCause) (s : State) : (s.enterFault c).answers = s.answers := rfl
@[simp] theorem State.enterFault_sinkReady (c : FaultCause) (s : State) : (s.enterFault c).sinkReady = s.sinkReady := rfl
@[simp] theorem State.enterFault_emitted (c : FaultCause) (s : State) : (s.enterFault c).emitted = s.emitted := rfl

/-! ### `State.enterEnd` -/

@[simp] theorem State.enterEnd_cfg (s : State) : (s.enterEnd).cfg = s.cfg := rfl
@[simp] theorem State.enterEnd_image (s : State) : (s.enterEnd).image = s.image := rfl
@[simp] theorem State.enterEnd_pc (s : State) : (s.enterEnd).pc = s.pc := rfl
@[simp] theorem State.enterEnd_mp (s : State) : (s.enterEnd).mp = s.mp := rfl
@[simp] theorem State.enterEnd_tape (s : State) : (s.enterEnd).tape = s.tape := rfl
@[simp] theorem State.enterEnd_fsm (s : State) : (s.enterEnd).fsm = .endOfProgram := rfl
@[simp] theorem State.enterEnd_faultCause (s : State) : (s.enterEnd).faultCause = s.faultCause := rfl
@[simp] theorem State.enterEnd_wait (s : State) : (s.enterEnd).wait = .idle := rfl
@[simp] theorem State.enterEnd_resp (s : State) : (s.enterEnd).resp = some .endOfProgram := rfl
@[simp] theorem State.enterEnd_answers (s : State) : (s.enterEnd).answers = s.answers := rfl
@[simp] theorem State.enterEnd_sinkReady (s : State) : (s.enterEnd).sinkReady = s.sinkReady := rfl
@[simp] theorem State.enterEnd_emitted (s : State) : (s.enterEnd).emitted = s.emitted := rfl

/-! ### `State.withImage` -/

@[simp] theorem State.withImage_cfg (img : Image) (s : State) : (s.withImage img).cfg = s.cfg := rfl
@[simp] theorem State.withImage_image (img : Image) (s : State) : (s.withImage img).image = img := rfl
@[simp] theorem State.withImage_pc (img : Image) (s : State) : (s.withImage img).pc = s.pc := rfl
@[simp] theorem State.withImage_mp (img : Image) (s : State) : (s.withImage img).mp = s.mp := rfl
@[simp] theorem State.withImage_tape (img : Image) (s : State) : (s.withImage img).tape = s.tape := rfl
@[simp] theorem State.withImage_fsm (img : Image) (s : State) : (s.withImage img).fsm = s.fsm := rfl
@[simp] theorem State.withImage_faultCause (img : Image) (s : State) : (s.withImage img).faultCause = s.faultCause := rfl
@[simp] theorem State.withImage_wait (img : Image) (s : State) : (s.withImage img).wait = s.wait := rfl
@[simp] theorem State.withImage_resp (img : Image) (s : State) : (s.withImage img).resp = s.resp := rfl
@[simp] theorem State.withImage_answers (img : Image) (s : State) : (s.withImage img).answers = s.answers := rfl
@[simp] theorem State.withImage_sinkReady (img : Image) (s : State) : (s.withImage img).sinkReady = s.sinkReady := rfl
@[simp] theorem State.withImage_emitted (img : Image) (s : State) : (s.withImage img).emitted = s.emitted := rfl

/-! ### `State.applyReset` -/

@[simp] theorem State.applyReset_cfg (s : State) : (s.applyReset).cfg = s.cfg := rfl
@[simp] theorem State.applyReset_image (s : State) : (s.applyReset).image = s.image := rfl
@[simp] theorem State.applyReset_pc (s : State) : (s.applyReset).pc = 0 := rfl
@[simp] theorem State.applyReset_mp (s : State) : (s.applyReset).mp = 0 := rfl
@[simp] theorem State.applyReset_tape (s : State) : (s.applyReset).tape = [] := rfl
@[simp] theorem State.applyReset_fsm (s : State) : (s.applyReset).fsm = .running := rfl
@[simp] theorem State.applyReset_faultCause (s : State) : (s.applyReset).faultCause = .none := rfl
@[simp] theorem State.applyReset_wait (s : State) : (s.applyReset).wait = .idle := rfl
@[simp] theorem State.applyReset_resp (s : State) : (s.applyReset).resp = none := rfl
@[simp] theorem State.applyReset_answers (s : State) : (s.applyReset).answers = s.answers := rfl
@[simp] theorem State.applyReset_sinkReady (s : State) : (s.applyReset).sinkReady = s.sinkReady := rfl
@[simp] theorem State.applyReset_emitted (s : State) : (s.applyReset).emitted = s.emitted := rfl

/-! ### `State.resetOf` -/

@[simp] theorem State.resetOf_cfg (c : Config) (img : Image) : (State.resetOf c img).cfg = c := rfl
@[simp] theorem State.resetOf_image (c : Config) (img : Image) : (State.resetOf c img).image = img := rfl
@[simp] theorem State.resetOf_pc (c : Config) (img : Image) : (State.resetOf c img).pc = 0 := rfl
@[simp] theorem State.resetOf_mp (c : Config) (img : Image) : (State.resetOf c img).mp = 0 := rfl
@[simp] theorem State.resetOf_tape (c : Config) (img : Image) : (State.resetOf c img).tape = [] := rfl
@[simp] theorem State.resetOf_fsm (c : Config) (img : Image) : (State.resetOf c img).fsm = .running := rfl
@[simp] theorem State.resetOf_faultCause (c : Config) (img : Image) : (State.resetOf c img).faultCause = .none := rfl
@[simp] theorem State.resetOf_wait (c : Config) (img : Image) : (State.resetOf c img).wait = .idle := rfl
@[simp] theorem State.resetOf_resp (c : Config) (img : Image) : (State.resetOf c img).resp = none := rfl
@[simp] theorem State.resetOf_answers (c : Config) (img : Image) : (State.resetOf c img).answers = [] := rfl
@[simp] theorem State.resetOf_sinkReady (c : Config) (img : Image) : (State.resetOf c img).sinkReady = true := rfl
@[simp] theorem State.resetOf_emitted (c : Config) (img : Image) : (State.resetOf c img).emitted = [] := rfl

end Sys2Proof.Machine
end

