-- ==== Sys2Proof/Laws/Ops.lean ====
section
/-! SUPPORT. One lemma per shared operation: everything it can answer. -/

namespace Sys2Proof.Machine

@[simp] theorem State.inBounds_iff (a : Nat) (s : State) : s.inBounds a = true ↔ a < s.cfg.tapeLen := by
  simp [State.inBounds]

@[simp] theorem cellIsZero_iff (v : Byte) : cellIsZero v = true ↔ v = 0#8 := by simp [cellIsZero]

/-- R34: the value in bounds, a read violation outside. -/
theorem memRead_spec (a : Nat) (s : State) :
    (a < s.cfg.tapeLen ∧ memRead a s = .value (s.tape.read a)) ∨
      (s.cfg.tapeLen ≤ a ∧ memRead a s = .violation .readAccessViolation) := by
  by_cases h : a < s.cfg.tapeLen
  · exact .inl ⟨h, by simp [memRead, State.inBounds, h]⟩
  · exact .inr ⟨by omega, by simp [memRead, State.inBounds, h]⟩

/-- R35: the cell set in bounds, a write violation outside. -/
theorem memWrite_spec (a : Nat) (v : Byte) (s : State) :
    (a < s.cfg.tapeLen ∧ memWrite a v s = .done (s.setCell a v)) ∨
      (s.cfg.tapeLen ≤ a ∧ memWrite a v s = .violation .writeAccessViolation) := by
  by_cases h : a < s.cfg.tapeLen
  · exact .inl ⟨h, by simp [memWrite, State.inBounds, h]⟩
  · exact .inr ⟨by omega, by simp [memWrite, State.inBounds, h]⟩

theorem readOperand_spec (s : State) :
    (s.mp < s.cfg.tapeLen ∧ readOperand s = .value (s.tape.read s.mp)) ∨
      (s.cfg.tapeLen ≤ s.mp ∧ readOperand s = .violation .readAccessViolation) :=
  memRead_spec s.mp s

/-- R84, R85: a read-modify-write out of bounds is a write violation. -/
theorem modifyOperand_spec (s : State) :
    (s.mp < s.cfg.tapeLen ∧ modifyOperand s = .value (s.tape.read s.mp)) ∨
      (s.cfg.tapeLen ≤ s.mp ∧ modifyOperand s = .violation .writeAccessViolation) := by
  by_cases h : s.mp < s.cfg.tapeLen
  · exact .inl ⟨h, by simp [modifyOperand, State.inBounds, h]⟩
  · exact .inr ⟨by omega, by simp [modifyOperand, State.inBounds, h]⟩

theorem writeOperand_spec (v : Byte) (next : Nat) (s : State) :
    (s.mp < s.cfg.tapeLen ∧ writeOperand v next s = .next ((s.setCell s.mp v).advance next)) ∨
      (s.cfg.tapeLen ≤ s.mp ∧ writeOperand v next s = .next (s.enterFault .writeAccessViolation)) := by
  rcases memWrite_spec s.mp v s with ⟨h, e⟩ | ⟨h, e⟩
  · exact .inl ⟨h, by simp [writeOperand, writeAndCommit, e, commit]⟩
  · exact .inr ⟨h, by simp [writeOperand, writeAndCommit, e, raiseFault]⟩

/-- R86, R117: the byte is taken and the step commits, or the step waits with it offered. -/
theorem emitAndCommit_spec (b : Byte) (next : Nat) (s : State) :
    (s.sinkReady = true ∧ emitAndCommit b next s = .next ((s.handOver b).advance next)) ∨
      (s.sinkReady = false ∧ emitAndCommit b next s = .next (s.holdIn (.emit b))) := by
  cases h : s.sinkReady
  · exact .inr ⟨rfl, by simp [emitAndCommit, h, hold]⟩
  · exact .inl ⟨rfl, by simp [emitAndCommit, h, commit]⟩

/-- R87: no answer yet, or the first one that is ready, consumed. -/
theorem receive_spec (s : State) :
    (s.answers = [] ∧ receive s = .nothing) ∨
      ∃ x rest, s.answers = x :: rest ∧ receive s = .answer x s.dropAnswer := by
  cases h : s.answers with
  | nil => exact .inl ⟨rfl, by simp [receive, h]⟩
  | cons x rest => exact .inr ⟨x, rest, rfl, by simp [receive, h]⟩

/-- R90, R91, R98: past the entry's index, or the fault where there is no entry. -/
theorem jumpPastTarget_spec (s : State) :
    (s.image.jumpTarget s.pc = none ∧
        jumpPastTarget s = .next (s.enterFault .missingJumpTarget)) ∨
      ∃ t, s.image.jumpTarget s.pc = some t ∧ jumpPastTarget s = .next (s.advance (s.pcPast t)) := by
  cases h : s.image.jumpTarget s.pc with
  | none => exact .inl ⟨rfl, by simp [jumpPastTarget, h, raiseFault]⟩
  | some t => exact .inr ⟨t, rfl, by simp [jumpPastTarget, h, commit]⟩

/-- The step down is the non-negative remainder of `mp - 1` (R9, R80). -/
theorem State.mpDown_eq_emod (s : State) :
    (s.mpDown : Int) = ((s.mp : Int) - 1) % (2 ^ s.cfg.mpW : Nat) := by
  have hpos : 0 < 2 ^ s.cfg.mpW := Nat.pow_pos (by decide)
  generalize hm : 2 ^ s.cfg.mpW = m at hpos
  have : ((s.mp + (m - 1) : Nat) : Int) = (s.mp : Int) - 1 + m := by omega
  simp only [State.mpDown, rangeOf, hm, Int.natCast_emod, this, Int.add_emod_right]

end Sys2Proof.Machine
end

