-- ==== Sys2Proof/Laws/Exec.lean ====
section
/-! SUPPORT. Everything an instruction can do, said once. -/

namespace Sys2Proof.Machine

/-- What instruction `i` makes of state `s`, one case per path of its rule. -/
inductive Effect (i : Instr) (s : State) : State → Prop where
  /-- `>` or `<` (R81, R82). -/
  | moved (m : Nat) (h : i = .ptrInc ∧ m = s.mpUp ∨ i = .ptrDec ∧ m = s.mpDown) :
      Effect i s ((s.setMp m).advance s.nextPc)
  /-- `+` or `-` in bounds (R84, R85). -/
  | modified (v : Byte) (h : i = .cellInc ∧ v = cellUp (s.tape.read s.mp) ∨
        i = .cellDec ∧ v = cellDown (s.tape.read s.mp)) (hb : s.mp < s.cfg.tapeLen) :
      Effect i s ((s.setCell s.mp v).advance s.nextPc)
  /-- `.` whose byte the sink takes (R88). -/
  | emitted (h : i = .output) (hb : s.mp < s.cfg.tapeLen) (hr : s.sinkReady = true) :
      Effect i s ((s.handOver (s.tape.read s.mp)).advance s.nextPc)
  /-- `.` that waits for the sink (R117). -/
  | offering (h : i = .output) (hb : s.mp < s.cfg.tapeLen) (hr : s.sinkReady = false) :
      Effect i s (s.holdIn (.emit (s.tape.read s.mp)))
  /-- `,` whose byte is stored (R89). -/
  | stored (b : Byte) (rest : List InputAnswer) (h : i = .input) (ha : s.answers = .data b :: rest)
        (hb : s.mp < s.cfg.tapeLen) :
      Effect i s ((s.dropAnswer.setCell s.mp b).advance s.nextPc)
  /-- `,` that waits for an answer (R116). -/
  | asking (h : i = .input) (ha : s.answers = []) : Effect i s (s.holdIn .receive)
  /-- `,` whose source fails (R96). -/
  | inputFailed (rest : List InputAnswer) (h : i = .input) (ha : s.answers = .fail :: rest) :
      Effect i s (s.dropAnswer.enterFault .inputSourceFailure)
  /-- `,` out of bounds: its byte is lost (R89). -/
  | inputLost (b : Byte) (rest : List InputAnswer) (h : i = .input) (ha : s.answers = .data b :: rest)
        (hb : s.cfg.tapeLen ≤ s.mp) :
      Effect i s (s.dropAnswer.enterFault .writeAccessViolation)
  /-- `[` on a non-zero cell or `]` on a zero one (R90, R91). -/
  | passed (h : i = .loopStart ∧ s.tape.read s.mp ≠ 0#8 ∨ i = .loopEnd ∧ s.tape.read s.mp = 0#8)
        (hb : s.mp < s.cfg.tapeLen) :
      Effect i s (s.advance s.nextPc)
  /-- `[` on a zero cell or `]` on a non-zero one (R90, R91). -/
  | jumped (t : Nat)
        (h : i = .loopStart ∧ s.tape.read s.mp = 0#8 ∨ i = .loopEnd ∧ s.tape.read s.mp ≠ 0#8)
        (hb : s.mp < s.cfg.tapeLen) (ht : s.image.jumpTarget s.pc = some t) :
      Effect i s (s.advance (s.pcPast t))
  /-- The same jump with no table entry (R98). -/
  | noTarget (h : i = .loopStart ∧ s.tape.read s.mp = 0#8 ∨ i = .loopEnd ∧ s.tape.read s.mp ≠ 0#8)
        (hb : s.mp < s.cfg.tapeLen) (ht : s.image.jumpTarget s.pc = none) :
      Effect i s (s.enterFault .missingJumpTarget)
  /-- `.` `[` `]` out of bounds (R94). -/
  | readViolation (h : i = .output ∨ i = .loopStart ∨ i = .loopEnd) (hb : s.cfg.tapeLen ≤ s.mp) :
      Effect i s (s.enterFault .readAccessViolation)
  /-- `+` `-` out of bounds (R95). -/
  | writeViolation (h : i = .cellInc ∨ i = .cellDec) (hb : s.cfg.tapeLen ≤ s.mp) :
      Effect i s (s.enterFault .writeAccessViolation)

theorem execPtrInc_effect {s t : State} (h : execPtrInc s = .next t) : Effect .ptrInc s t := by
  cases h; exact .moved _ (.inl ⟨rfl, rfl⟩)

theorem execPtrDec_effect {s t : State} (h : execPtrDec s = .next t) : Effect .ptrDec s t := by
  cases h; exact .moved _ (.inr ⟨rfl, rfl⟩)

theorem execCellInc_effect {s t : State} (h : execCellInc s = .next t) : Effect .cellInc s t := by
  rcases modifyOperand_spec s with ⟨hb, e⟩ | ⟨hb, e⟩
  · rcases writeOperand_spec (cellUp (s.tape.read s.mp)) s.nextPc s with ⟨_, w⟩ | ⟨hn, _⟩
    · simp only [execCellInc, e, w, Host.Outcome.next.injEq] at h
      exact h ▸ .modified _ (.inl ⟨rfl, rfl⟩) hb
    · omega
  · simp only [execCellInc, e, raiseFault, Host.Outcome.next.injEq] at h
    exact h ▸ .writeViolation (.inl rfl) hb

theorem execCellDec_effect {s t : State} (h : execCellDec s = .next t) : Effect .cellDec s t := by
  rcases modifyOperand_spec s with ⟨hb, e⟩ | ⟨hb, e⟩
  · rcases writeOperand_spec (cellDown (s.tape.read s.mp)) s.nextPc s with ⟨_, w⟩ | ⟨hn, _⟩
    · simp only [execCellDec, e, w, Host.Outcome.next.injEq] at h
      exact h ▸ .modified _ (.inr ⟨rfl, rfl⟩) hb
    · omega
  · simp only [execCellDec, e, raiseFault, Host.Outcome.next.injEq] at h
    exact h ▸ .writeViolation (.inr rfl) hb

theorem execOutput_effect {s t : State} (h : execOutput s = .next t) : Effect .output s t := by
  rcases readOperand_spec s with ⟨hb, e⟩ | ⟨hb, e⟩
  · rcases emitAndCommit_spec (s.tape.read s.mp) s.nextPc s with ⟨hr, w⟩ | ⟨hr, w⟩
    · simp only [execOutput, e, w, Host.Outcome.next.injEq] at h
      exact h ▸ .emitted rfl hb hr
    · simp only [execOutput, e, w, Host.Outcome.next.injEq] at h
      exact h ▸ .offering rfl hb hr
  · simp only [execOutput, e, raiseFault, Host.Outcome.next.injEq] at h
    exact h ▸ .readViolation (.inl rfl) hb

theorem execInput_effect {s t : State} (h : execInput s = .next t) : Effect .input s t := by
  rcases receive_spec s with ⟨ha, e⟩ | ⟨x, rest, ha, e⟩
  · simp only [execInput, e, hold, Host.Outcome.next.injEq] at h
    exact h ▸ .asking rfl ha
  · cases x with
    | fail =>
      simp only [execInput, e, raiseFault, Host.Outcome.next.injEq] at h
      exact h ▸ .inputFailed rest rfl ha
    | data b =>
      rcases writeOperand_spec b s.dropAnswer.nextPc s.dropAnswer with ⟨hb, w⟩ | ⟨hb, w⟩
      · simp only [execInput, e, w, Host.Outcome.next.injEq] at h
        exact h ▸ .stored b rest rfl ha hb
      · simp only [execInput, e, w, Host.Outcome.next.injEq] at h
        exact h ▸ .inputLost b rest rfl ha hb

theorem jumpPastTarget_effect {i : Instr} {s t : State}
    (hi : i = .loopStart ∧ s.tape.read s.mp = 0#8 ∨ i = .loopEnd ∧ s.tape.read s.mp ≠ 0#8)
    (hb : s.mp < s.cfg.tapeLen) (h : jumpPastTarget s = .next t) : Effect i s t := by
  rcases jumpPastTarget_spec s with ⟨ht, e⟩ | ⟨p, ht, e⟩ <;>
    simp only [e, Host.Outcome.next.injEq] at h
  · exact h ▸ .noTarget hi hb ht
  · exact h ▸ .jumped p hi hb ht

theorem execLoopStart_effect {s t : State} (h : execLoopStart s = .next t) : Effect .loopStart s t := by
  rcases readOperand_spec s with ⟨hb, e⟩ | ⟨hb, e⟩
  · simp only [execLoopStart, e, cellIsZero_iff] at h
    split at h
    · exact jumpPastTarget_effect (.inl ⟨rfl, ‹_›⟩) hb h
    · simp only [commit, Host.Outcome.next.injEq] at h
      exact h ▸ .passed (.inl ⟨rfl, ‹_›⟩) hb
  · simp only [execLoopStart, e, raiseFault, Host.Outcome.next.injEq] at h
    exact h ▸ .readViolation (.inr (.inl rfl)) hb

theorem execLoopEnd_effect {s t : State} (h : execLoopEnd s = .next t) : Effect .loopEnd s t := by
  rcases readOperand_spec s with ⟨hb, e⟩ | ⟨hb, e⟩
  · simp only [execLoopEnd, e, cellIsZero_iff] at h
    split at h
    · simp only [commit, Host.Outcome.next.injEq] at h
      exact h ▸ .passed (.inr ⟨rfl, ‹_›⟩) hb
    · exact jumpPastTarget_effect (.inr ⟨rfl, ‹_›⟩) hb h
  · simp only [execLoopEnd, e, raiseFault, Host.Outcome.next.injEq] at h
    exact h ▸ .readViolation (.inr (.inr rfl)) hb

/-- If an instruction answers a next state, it is one of the effects of that instruction. -/
theorem exec_effect {i : Instr} {s t : State} (h : exec i s = .next t) : Effect i s t := by
  cases i with
  | ptrInc => exact execPtrInc_effect h
  | ptrDec => exact execPtrDec_effect h
  | cellInc => exact execCellInc_effect h
  | cellDec => exact execCellDec_effect h
  | output => exact execOutput_effect h
  | input => exact execInput_effect h
  | loopStart => exact execLoopStart_effect h
  | loopEnd => exact execLoopEnd_effect h

end Sys2Proof.Machine
end

