-- ==== Sys2Proof/Laws/Loader.lean ====
section
/-! SUPPORT. The equations of the loader's scan and of the bracket check, by what the next byte is. -/

namespace Sys2Proof

theorem balancedFrom_start (d : Nat) (rest : List Byte) :
    balancedFrom d (encode .loopStart :: rest) = balancedFrom (d + 1) rest := rfl

theorem balancedFrom_end_succ (d : Nat) (rest : List Byte) :
    balancedFrom (d + 1) (encode .loopEnd :: rest) = balancedFrom d rest := rfl

theorem balancedFrom_end_zero (rest : List Byte) :
    balancedFrom 0 (encode .loopEnd :: rest) = false := rfl

/-- A byte that is no bracket leaves the depth as it is. -/
theorem balancedFrom_other {b : Byte} (hs : b ≠ encode .loopStart) (he : b ≠ encode .loopEnd)
    (d : Nat) (rest : List Byte) : balancedFrom d (b :: rest) = balancedFrom d rest := by
  simp only [balancedFrom]
  split
  · exact absurd ((decode_eq_instr_iff _ _).1 ‹_›) hs
  · exact absurd ((decode_eq_instr_iff _ _).1 ‹_›) he
  · rfl

/-- What closes `e` open loops leaves the loops opened before them open. -/
theorem balancedFrom_append (xs : List Byte) :
    ∀ e, balancedFrom e xs = true → ∀ (d : Nat) (ys : List Byte),
      balancedFrom (e + d) (xs ++ ys) = balancedFrom d ys := by
  induction xs with
  | nil =>
    intro e h d ys
    have : e = 0 := by simpa [balancedFrom] using h
    simp [this]
  | cons b xs ih =>
    intro e h d ys
    rw [List.cons_append]
    by_cases hs : b = encode .loopStart
    · subst hs
      rw [balancedFrom_start] at h ⊢
      rw [show e + d + 1 = e + 1 + d by omega]
      exact ih _ h d ys
    · by_cases he : b = encode .loopEnd
      · subst he
        cases e with
        | zero => rw [balancedFrom_end_zero] at h; cases h
        | succ e =>
          rw [balancedFrom_end_succ] at h
          rw [show e + 1 + d = e + d + 1 by omega, balancedFrom_end_succ]
          exact ih _ h d ys
      · rw [balancedFrom_other hs he] at h ⊢
        exact ih _ h d ys

/-- Balance by counts: no initial segment holds more loop ends than the loops opened by then, and all of
the bytes close exactly those that are open. -/
theorem balancedFrom_iff_counts (bs : List Byte) :
    ∀ d, balancedFrom d bs = true ↔
      (∀ k, k ≤ bs.length →
        (bs.take k).count (encode .loopEnd) ≤ d + (bs.take k).count (encode .loopStart)) ∧
      bs.count (encode .loopEnd) = d + bs.count (encode .loopStart) := by
  have hne : encode .loopEnd ≠ encode .loopStart := by decide
  induction bs with
  | nil =>
    intro d
    simp only [balancedFrom, beq_iff_eq, List.take_nil, List.count_nil, Nat.add_zero, Nat.zero_le,
      implies_true, true_and]
    exact eq_comm
  | cons b bs ih =>
    intro d
    have segments : ∀ P : Nat → Prop, (∀ k, k ≤ (b :: bs).length → P k) ↔
        P 0 ∧ ∀ k, k ≤ bs.length → P (k + 1) := fun P =>
      ⟨fun h => ⟨h 0 (Nat.zero_le _), fun k hk => h (k + 1) (Nat.succ_le_succ hk)⟩,
       fun h k hk => by
        cases k with
        | zero => exact h.1
        | succ k => exact h.2 k (Nat.le_of_succ_le_succ hk)⟩
    rw [segments]
    by_cases hs : b = encode .loopStart
    · subst hs
      rw [balancedFrom_start, ih]
      simp only [List.take_zero, List.count_nil, List.take_succ_cons, List.count_cons_self,
        List.count_cons_of_ne hne.symm]
      constructor
      · rintro ⟨h, e⟩
        exact ⟨⟨by omega, fun k hk => by have := h k hk; omega⟩, by omega⟩
      · rintro ⟨⟨_, h⟩, e⟩
        exact ⟨fun k hk => by have := h k hk; omega, by omega⟩
    · by_cases he : b = encode .loopEnd
      · subst he
        simp only [List.take_zero, List.count_nil, List.take_succ_cons, List.count_cons_self,
          List.count_cons_of_ne hne]
        cases d with
        | zero =>
          rw [balancedFrom_end_zero]
          refine ⟨fun h => by simp at h, fun ⟨⟨_, h⟩, _⟩ => ?_⟩
          have := h 0 (Nat.zero_le _)
          simp at this
        | succ d =>
          rw [balancedFrom_end_succ, ih]
          constructor
          · rintro ⟨h, e⟩
            exact ⟨⟨by omega, fun k hk => by have := h k hk; omega⟩, by omega⟩
          · rintro ⟨⟨_, h⟩, e⟩
            exact ⟨fun k hk => by have := h k hk; omega, by omega⟩
      · rw [balancedFrom_other hs he, ih]
        simp only [List.take_zero, List.count_nil, List.take_succ_cons, List.count_cons_of_ne hs,
          List.count_cons_of_ne he]
        constructor
        · rintro ⟨h, e⟩; exact ⟨⟨by omega, h⟩, e⟩
        · rintro ⟨⟨_, h⟩, e⟩; exact ⟨h, e⟩

theorem resolve_nil (i : Nat) (sc : Scan) : resolve i sc [] = some sc := rfl

theorem resolve_start (i : Nat) (sc : Scan) (rest : List Byte) :
    resolve i sc (encode .loopStart :: rest) =
      resolve (i + 1) { sc with stack := i :: sc.stack } rest := rfl

theorem resolve_end_nil (i : Nat) (table : List (Option Nat)) (rest : List Byte) :
    resolve i { stack := [], table := table } (encode .loopEnd :: rest) = none := rfl

theorem resolve_end_cons (i j : Nat) (stack : List Nat) (table : List (Option Nat))
    (rest : List Byte) :
    resolve i { stack := j :: stack, table := table } (encode .loopEnd :: rest) =
      resolve (i + 1) { stack := stack, table := (table.set j (some i)).set i (some j) } rest := rfl

/-- A byte that is no bracket only moves the scan on. -/
theorem resolve_other {b : Byte} (hs : b ≠ encode .loopStart) (he : b ≠ encode .loopEnd)
    (i : Nat) (sc : Scan) (rest : List Byte) :
    resolve i sc (b :: rest) = resolve (i + 1) sc rest := by
  simp only [resolve]
  split
  · exact absurd ((decode_eq_instr_iff _ _).1 ‹_›) hs
  · exact absurd ((decode_eq_instr_iff _ _).1 ‹_›) he
  · rfl

/-- The scan keeps the table's length. -/
theorem resolve_table_length {sc' : Scan} (bs : List Byte) :
    ∀ (i : Nat) (sc : Scan), resolve i sc bs = some sc' → sc'.table.length = sc.table.length := by
  induction bs with
  | nil => intro i sc h; cases h; rfl
  | cons b bs ih =>
    intro i sc h
    by_cases hs : b = encode .loopStart
    · subst hs; rw [resolve_start] at h; simpa using ih _ _ h
    · by_cases he : b = encode .loopEnd
      · subst he
        obtain ⟨stack, table⟩ := sc
        cases stack with
        | nil => rw [resolve_end_nil] at h; cases h
        | cons j stack => rw [resolve_end_cons] at h; simpa using ih _ _ h
      · rw [resolve_other hs he] at h; exact ih _ _ h

end Sys2Proof
end

