-- ==== Sys2Proof/Laws/PerInstr.lean ====
section
/-! SUPPORT. Statements about every instruction, one lemma per constructor. -/

namespace Sys2Proof.Laws

/-- The instruction is well-formed and its opcode decodes to it (R50, R62). -/
def Encoding.Statement (i : Instr) : Prop := i.wf = true ∧ decode (encode i) = .instr i

theorem Encoding.ptrInc : Encoding.Statement .ptrInc := ⟨rfl, decode_encode_of _⟩
theorem Encoding.ptrDec : Encoding.Statement .ptrDec := ⟨rfl, decode_encode_of _⟩
theorem Encoding.cellInc : Encoding.Statement .cellInc := ⟨rfl, decode_encode_of _⟩
theorem Encoding.cellDec : Encoding.Statement .cellDec := ⟨rfl, decode_encode_of _⟩
theorem Encoding.output : Encoding.Statement .output := ⟨rfl, decode_encode_of _⟩
theorem Encoding.input : Encoding.Statement .input := ⟨rfl, decode_encode_of _⟩
theorem Encoding.loopStart : Encoding.Statement .loopStart := ⟨rfl, decode_encode_of _⟩
theorem Encoding.loopEnd : Encoding.Statement .loopEnd := ⟨rfl, decode_encode_of _⟩

end Sys2Proof.Laws
end

