-- ==== Sys2Proof/Laws/Step.lean ====
section
/-! SUPPORT. Fetching, and everything a step can do, said once. -/

namespace Sys2Proof.Machine

theorem fetchedByte_instr_iff (b : Byte) (i : Instr) : fetchedByte b = .instr i ↔ b = encode i := by
  rw [← decode_eq_instr_iff]
  unfold fetchedByte
  cases decode b <;> simp

theorem fetchedByte_illegal_iff (b c : Byte) :
    fetchedByte b = .illegal c ↔ b = c ∧ isOpcode b = false := by
  unfold fetchedByte isOpcode
  cases hd : decode b with
  | instr i => simp
  | illegal d => have := decode_eq_illegal hd; simp [this]

theorem fetchedByte_ne_ended (b : Byte) : fetchedByte b ≠ .ended := by
  unfold fetchedByte
  cases decode b <;> simp

theorem Image.fetch_of_lt (img : Image) {i : Nat} (h : i < img.count) :
    ∃ b, img.fetch i = some b := ⟨img.prog[i], List.getElem?_eq_getElem h⟩

theorem Image.lt_of_fetch {img : Image} {i : Nat} {b : Byte} (h : img.fetch i = some b) :
    i < img.count := (List.getElem?_eq_some_iff.1 h).1

/-- Before the end, what is fetched is the decoded byte at `pc` (R71, R72). -/
theorem fetchAt_of_fetch {img : Image} {pc : Nat} {b : Byte} (h : img.fetch pc = some b) :
    fetchAt img pc = fetchedByte b := by
  have hlt := Image.lt_of_fetch h
  simp [fetchAt, Nat.not_le.2 hlt, h]

/-- R71: the end check. -/
theorem fetchAt_ended_iff (img : Image) (pc : Nat) : fetchAt img pc = .ended ↔ img.count ≤ pc := by
  by_cases h : img.count ≤ pc
  · simp [fetchAt, h]
  · obtain ⟨b, hb⟩ := Image.fetch_of_lt img (Nat.not_le.1 h)
    simp [fetchAt_of_fetch hb, fetchedByte_ne_ended, h]

/-- The byte at `pc` is the opcode of `i` (R72). -/
theorem fetchAt_instr_iff (img : Image) (pc : Nat) (i : Instr) :
    fetchAt img pc = .instr i ↔ img.fetch pc = some (encode i) := by
  by_cases h : img.count ≤ pc
  · have hn : img.fetch pc = none := List.getElem?_eq_none h
    simp [fetchAt, h, hn]
  · obtain ⟨b, hb⟩ := Image.fetch_of_lt img (Nat.not_le.1 h)
    rw [fetchAt_of_fetch hb, fetchedByte_instr_iff, hb, Option.some.injEq]

/-- The byte at `pc` is no opcode (R73). -/
theorem fetchAt_illegal_iff (img : Image) (pc : Nat) (c : Byte) :
    fetchAt img pc = .illegal c ↔ img.fetch pc = some c ∧ isOpcode c = false := by
  by_cases h : img.count ≤ pc
  · have hn : img.fetch pc = none := List.getElem?_eq_none h
    simp [fetchAt, h, hn]
  · obtain ⟨b, hb⟩ := Image.fetch_of_lt img (Nat.not_le.1 h)
    rw [fetchAt_of_fetch hb, fetchedByte_illegal_iff, hb, Option.some.injEq]
    constructor <;> rintro ⟨rfl, hi⟩ <;> exact ⟨rfl, hi⟩

/-- What a step makes of a state, one case per line of R69. -/
inductive StepEffect (s : State) : State → Prop where
  /-- R67. -/
  | ended (h : s.fsm = .endOfProgram) : StepEffect s (s.respond .endOfProgram)
  /-- R67. -/
  | faulted (h : s.fsm = .faulted) : StepEffect s (s.respond (.fault s.faultCause))
  /-- R71. -/
  | finished (h : s.fsm = .running) (hn : s.image.count ≤ s.pc) : StepEffect s s.enterEnd
  /-- R73. -/
  | illegal (b : Byte) (h : s.fsm = .running) (hf : s.image.fetch s.pc = some b)
        (hb : isOpcode b = false) :
      StepEffect s (s.enterFault .illegalInstruction)
  /-- R72. -/
  | ran (i : Instr) (t : State) (h : s.fsm = .running) (hf : s.image.fetch s.pc = some (encode i))
        (he : Effect i s t) :
      StepEffect s t

/-- If a step answers a next state, it is one of these. -/
theorem step_effect {s t : State} (h : step s = .next t) : StepEffect s t := by
  unfold step at h
  split at h
  · cases h; exact .ended ‹_›
  · cases h; exact .faulted ‹_›
  · cases hf : s.fetched with
    | ended =>
      rw [hf] at h; cases h
      exact .finished ‹_› ((fetchAt_ended_iff _ _).1 hf)
    | illegal b =>
      rw [hf] at h; cases h
      obtain ⟨hb, ho⟩ := (fetchAt_illegal_iff _ _ _).1 hf
      exact .illegal b ‹_› hb ho
    | instr i =>
      rw [hf] at h
      exact .ran i t ‹_› ((fetchAt_instr_iff _ _ _).1 hf) (exec_effect h)

end Sys2Proof.Machine
end

