-- ==== Sys2Proof/Laws/Session.lean ====
section
/-! SUPPORT. Runs: of steps and of acts of the host. -/

namespace Sys2Proof.Machine

theorem stepN_succ {s t : State} (h : step s = .next t) (k : Nat) : stepN (k + 1) s = stepN k t := by
  simp [stepN, h]

/-- A state that a step leaves as it is stays so. -/
theorem stepN_of_fixed {s : State} (h : step s = .next s) (k : Nat) : stepN k s = .next s := by
  induction k with
  | zero => rfl
  | succ k ih => rw [stepN_succ h, ih]

/-- `stepN` is the run of the host's interface. -/
theorem stepN_eq_run (k : Nat) (s : State) : stepN k s = Host.Core.run Sys2Proof.core k s := by
  induction k generalizing s with
  | zero => rfl
  | succ k ih =>
    cases h : step s with
    | next t =>
      have h' : Sys2Proof.core.step s = .next t := h
      simp only [stepN, Host.Core.run, h, h']
      exact ih t
    | fault r =>
      have h' : Sys2Proof.core.step s = .fault r := h
      simp only [stepN, Host.Core.run, h, h']
      rfl
    | refused r =>
      have h' : Sys2Proof.core.step s = .refused r := h
      simp only [stepN, Host.Core.run, h, h']
      rfl

theorem hostRun_cons {e : HostEvent} {s t : State} (h : hostStep e s = .next t)
    (es : List HostEvent) : hostRun (e :: es) s = hostRun es t := by
  simp [hostRun, h]

/-- A property that every act of the host keeps holds after every sequence of acts. -/
theorem hostRun_induction {P : State → Prop}
    (hstep : ∀ e s t, P s → hostStep e s = .next t → P t) :
    ∀ (es : List HostEvent) (s t : State), P s → hostRun es s = .next t → P t := by
  intro es
  induction es with
  | nil => intro s t hs h; cases h; exact hs
  | cons e es ih =>
    intro s t hs h
    unfold hostRun at h
    split at h
    · exact ih _ _ (hstep e s _ hs ‹_›) h
    · cases h
    · cases h

/-- A property that every step keeps holds after every number of steps. -/
theorem stepN_induction {P : State → Prop} (hstep : ∀ s t, P s → step s = .next t → P t) :
    ∀ (k : Nat) (s t : State), P s → stepN k s = .next t → P t := by
  intro k
  induction k with
  | zero => intro s t hs h; cases h; exact hs
  | succ k ih =>
    intro s t hs h
    unfold stepN at h
    split at h
    · exact ih _ _ (hstep s _ hs ‹_›) h
    · cases h
    · cases h

end Sys2Proof.Machine
end

