-- ==== Sys2Proof/Tests/Slice0.lean ====
section
/-! SUPPORT. Tests. Expected results are those of 95_test_vectors.md (the vector is named) or worked
by hand from the rule named; the witnesses meet the hypotheses of the obligations they name. -/

namespace Sys2Proof.Tests

open Sys2Proof.Machine

/-- A running engine of configuration SMALL with this program and table, after reset. -/
def eng (prog : List Byte) (table : List (Option Nat)) : State :=
  State.resetOf Config.small { prog := prog, table := table }

/-- The next state, where there is one. -/
def nextOf (o : Host.Outcome State Fault Refusal) : Option State :=
  match o with
  | .next s => some s
  | .fault _ => none
  | .refused _ => none

/-- Why an act of the host is refused. -/
def refusalOf (o : Host.Outcome State Fault Refusal) : Option Refusal :=
  match o with
  | .next _ => none
  | .fault _ => none
  | .refused r => some r

/-- The next state of one step. -/
def stepped (s : State) : Option State := nextOf (step s)

/-! ### Well-formedness: an ill-formed term for each check -/

theorem test_config_ref_ok : Config.ref.wf = true ∧ Config.small.wf = true := by decide
theorem test_config_width_refused : Config.wf { Config.small with pcW := 0, progMax := 0 } = false := by decide
theorem test_config_tape_refused :
    Config.wf { Config.small with tapeLen := 0 } = false ∧
    Config.wf { Config.small with tapeLen := 256 } = false := by decide
theorem test_config_prog_refused : Config.wf { Config.small with progMax := 256 } = false := by decide
theorem test_image_empty_ok : Image.empty.wf Config.small = true := by decide
theorem test_image_loop_ok :
    Image.wf Config.small { prog := [0x5B#8, 0x2B#8, 0x5D#8], table := [some 2, none, some 0] } = true := by
  decide
theorem test_image_length_refused :
    Image.wf { Config.small with progMax := 1 } { prog := [0x2B#8, 0x2B#8], table := [] } = false := by decide
theorem test_image_byte_refused : Image.wf Config.small { prog := [0x41#8], table := [none] } = false := by decide
theorem test_image_domain_refused :
    Image.wf Config.small { prog := [0x2B#8], table := [none, some 0] } = false := by decide
theorem test_image_start_refused :
    Image.wf Config.small { prog := [0x5B#8, 0x5D#8], table := [none, some 0] } = false := by decide
theorem test_image_end_refused :
    Image.wf Config.small { prog := [0x5B#8, 0x5D#8, 0x5D#8], table := [some 1, some 0, none] } = false := by
  decide
theorem test_image_other_refused :
    Image.wf Config.small { prog := [0x2B#8], table := [some 0] } = false := by decide
/-- Crossed pairs: symmetric, but the brackets between a pair are not balanced (R55 item 4). -/
theorem test_image_nesting_refused :
    Image.wf Config.small { prog := [0x5B#8, 0x5B#8, 0x5D#8, 0x5D#8],
                            table := [some 2, some 3, some 0, some 1] } = false := by decide

/-! ### Decoding, from the bit column of R50 -/

theorem test_decode_ptrInc : decode 0b00111110#8 = .instr .ptrInc := by decide
theorem test_decode_ptrDec : decode 0b00111100#8 = .instr .ptrDec := by decide
theorem test_decode_cellInc : decode 0b00101011#8 = .instr .cellInc := by decide
theorem test_decode_cellDec : decode 0b00101101#8 = .instr .cellDec := by decide
theorem test_decode_output : decode 0b00101110#8 = .instr .output := by decide
theorem test_decode_input : decode 0b00101100#8 = .instr .input := by decide
theorem test_decode_loopStart : decode 0b01011011#8 = .instr .loopStart := by decide
theorem test_decode_loopEnd : decode 0b01011101#8 = .instr .loopEnd := by decide
theorem test_decode_illegal : decode 0x41#8 = .illegal 0x41#8 ∧ decode 0xBE#8 = .illegal 0xBE#8 := by decide
theorem test_opcode_rows_disjoint :
    opcodeMap.Pairwise (fun r q => ¬ (r.matchesByte q.pattern = true)) := by decide
theorem test_decodeTableWord : decodeTableWord 8 0x5D = some .loopEnd ∧ decodeTableWord 8 0x00 = none := by
  decide

/-! ### Loader: S1, S3 to S5, B1, B2, B9 -/

theorem test_loader_filters :
    build Config.ref [0x61#8, 0x2B#8, 0x20#8, 0x62#8, 0x2D#8, 0x0A#8, 0x2E#8, 0x2C#8] =
      .image { prog := [0x2B#8, 0x2D#8, 0x2E#8, 0x2C#8], table := [none, none, none, none] } := by decide
theorem test_loader_nested :
    build Config.ref [0x5B#8, 0x5B#8, 0x5D#8, 0x5D#8] =
      .image { prog := [0x5B#8, 0x5B#8, 0x5D#8, 0x5D#8], table := [some 3, some 2, some 1, some 0] } := by
  decide
theorem test_loader_unclosed : build Config.ref [0x5B#8] = .error .loopStartWithoutEnd := by decide
theorem test_loader_unopened :
    build Config.ref [0x5D#8] = .error .loopEndWithoutBeginning ∧
    build Config.ref [0x5D#8, 0x5B#8] = .error .loopEndWithoutBeginning := by decide
/-- R60: the length is checked before the brackets (as B10, with a smaller `PROG_MAX`). -/
theorem test_loader_too_long :
    build { Config.small with progMax := 2 } [0x2B#8, 0x2B#8, 0x5D#8] = .error .programTooLong := by decide

/-! ### Instructions -/

/-- P-2: out of bounds, no fault. -/
theorem test_ptrInc_leaves_tape :
    (stepped { eng [0x3E#8] [] with mp := 3 }).map (fun s => (s.pc, s.mp, s.fsm, s.resp)) =
      some (1, 4, .running, some (.executed 0)) := by decide
/-- P-3. -/
theorem test_ptrInc_wraps : (stepped { eng [0x3E#8] [] with mp := 255 }).map (·.mp) = some 0 := by decide
/-- P-4. -/
theorem test_ptrDec_wraps : (stepped (eng [0x3C#8] [])).map (fun s => (s.pc, s.mp)) = some (1, 255) := by decide
/-- P-6. -/
theorem test_ptrDec_wraps_ref :
    (stepped (State.resetOf Config.ref { prog := [0x3C#8], table := [] })).map (·.mp) = some 65535 := by
  decide
/-- C2. -/
theorem test_cellInc_wraps :
    (stepped { eng [0x2B#8] [] with tape := [(0, 255#8)] }).map (fun s => (s.pc, s.tape)) = some (1, []) := by
  decide
/-- C6. -/
theorem test_cellInc_faults :
    (stepped { eng [0x2B#8] [] with mp := 4, tape := [(0, 9#8)] }).map
      (fun s => (s.pc, s.mp, s.tape, s.fsm, s.faultCause)) =
      some (0, 4, [(0, 9#8)], .faulted, .writeAccessViolation) := by decide
/-- C3. -/
theorem test_cellDec_wraps : (stepped (eng [0x2D#8] [])).map (·.tape) = some [(0, 255#8)] := by decide
/-- C7. -/
theorem test_cellDec_faults :
    (stepped { eng [0x2D#8] [] with mp := 255 }).map (fun s => (s.pc, s.resp)) =
      some (0, some (.fault .writeAccessViolation)) := by decide
/-- O2, at an address of SMALL. -/
theorem test_output_emits :
    (stepped { eng [0x2E#8] [] with mp := 2, tape := [(2, 255#8)], emitted := [7#8] }).map
      (fun s => (s.pc, s.emitted)) = some (1, [7#8, 255#8]) := by decide
/-- O3. -/
theorem test_output_faults :
    (stepped { eng [0x2E#8] [] with mp := 4 }).map (fun s => (s.emitted, s.faultCause)) =
      some ([], .readAccessViolation) := by decide
/-- I4: the byte is consumed and lost. -/
theorem test_input_loses_byte :
    (stepped { eng [0x2C#8] [] with mp := 4, answers := [.data 7#8, .fail] }).map
      (fun s => (s.faultCause, s.answers)) = some (.writeAccessViolation, [.fail]) := by decide
/-- I5 and I2. -/
theorem test_input_order :
    (stepped { eng [0x2C#8] [] with mp := 4, answers := [.fail] }).map (·.faultCause) =
      some .inputSourceFailure ∧
    (stepped { eng [0x2C#8] [] with tape := [(0, 0x7F#8)], answers := [.data 0#8] }).map (·.tape) =
      some [] := by decide
/-- L1 and L9. -/
theorem test_loopStart_jumps :
    (stepped (eng [0x5B#8, 0x2B#8, 0x5D#8] [some 2, none, some 0])).map (fun s => (s.pc, s.resp)) =
      some (3, some (.executed 0)) ∧
    (stepped (eng [0x5B#8, 0x2B#8, 0x5D#8] [])).map (·.faultCause) = some .missingJumpTarget := by decide
/-- L10. -/
theorem test_loopStart_passes :
    (stepped { eng [0x5B#8, 0x2B#8, 0x5D#8] [] with tape := [(0, 1#8)] }).map (fun s => (s.pc, s.fsm)) =
      some (1, .running) := by decide
/-- L3. -/
theorem test_loopEnd_jumps :
    (stepped { eng [0x2B#8, 0x5B#8, 0x2D#8, 0x5D#8] [none, some 3, none, some 1] with
      pc := 3, tape := [(0, 1#8)] }).map (fun s => (s.pc, s.resp)) =
      some (2, some (.executed 3)) := by decide
/-- L4 and L6. -/
theorem test_loopEnd_passes :
    (stepped { eng [0x2B#8, 0x5B#8, 0x2D#8, 0x5D#8] [none, some 3, none, some 1] with pc := 3 }).map
      (·.pc) = some 4 ∧
    (stepped { eng [0x2B#8, 0x5B#8, 0x2D#8, 0x5D#8] [none, some 3, none, some 1] with
      pc := 3, mp := 255 }).map (fun s => (s.pc, s.faultCause)) = some (3, .readAccessViolation) := by
  decide
/-- ST6. -/
theorem test_illegal_byte :
    (stepped (eng [0x41#8] [])).map (fun s => (s.pc, s.fsm, s.resp)) =
      some (0, .faulted, some (.fault .illegalInstruction)) := by decide
/-- ST1 and ST5. -/
theorem test_terminal :
    (stepped (eng [] [])).map (fun s => (s.pc, s.fsm)) = some (0, .endOfProgram) ∧
    (stepped { eng [0x2B#8] [] with mp := 9, fsm := .faulted, faultCause := .writeAccessViolation }).map
      (fun s => (s.pc, s.resp)) = some (0, some (.fault .writeAccessViolation)) := by decide
/-- The word placed after reset is fetched and run. -/
theorem test_withFetchWord :
    (stepped (State.reset.withFetchWord 8 0x5B)).map (fun s => (s.pc, s.image.wf s.cfg)) =
      some (2, true) ∧
    (stepped (State.reset.withFetchWord 8 0x5D)).map (fun s => (s.pc, s.resp)) =
      some (1, some (.executed 0)) := by decide

/-! ### Witnesses: states and operands that meet the hypotheses of the obligations -/

/-- An engine that runs `,[.,]` (P9). -/
def echo : State := eng [0x2C#8, 0x5B#8, 0x2E#8, 0x2C#8, 0x5D#8] [none, some 4, none, none, some 1]

theorem witness_admitted : echo.Admitted :=
  ⟨⟨by decide, by decide, by decide, by decide, by decide, by decide, by decide, by decide,
    fun _ h => nomatch h⟩, by decide, by decide, by decide, by decide⟩

theorem witness_ConfigConstraints : Config.small.wf = true ∧ (255 : Nat) ≤ Config.small.progMax := by decide
theorem witness_DecodeIsTotalAndExact :
    echo.image.fetch echo.pc = some 0x2C#8 ∧ decode 0x2C#8 = .instr .input ∧
    (eng [0x41#8] []).image.fetch 0 = some 0x41#8 ∧ decode 0x41#8 = .illegal 0x41#8 := by decide
theorem witness_ProgramsDecodeAsEncoded : decodeAll [0x2C#8, 0x2E#8] = some [.input, .output] := by decide
theorem witness_LoaderFilters :
    build Config.small [0x61#8, 0x2B#8] = .image { prog := [0x2B#8], table := [none] } ∧
    ([0x2B#8] : List Byte).length ≤ Config.small.progMax ∧ 0x5B#8 ∉ [0x61#8, 0x2B#8] ∧
    0x5D#8 ∉ [0x61#8, 0x2B#8] := by decide
/-- At length exactly `PROG_MAX`: an image, and each bracket error, where one byte more is too long. -/
theorem witness_LoaderResultCases :
    build { Config.small with progMax := 2 } [0x5B#8, 0x5D#8] =
      .image { prog := [0x5B#8, 0x5D#8], table := [some 1, some 0] } ∧
    build { Config.small with progMax := 2 } [0x5D#8, 0x5B#8] = .error .loopEndWithoutBeginning ∧
    build { Config.small with progMax := 2 } [0x5B#8, 0x2B#8] = .error .loopStartWithoutEnd ∧
    build { Config.small with progMax := 2 } [0x5B#8, 0x5D#8, 0x2B#8] = .error .programTooLong := by decide
theorem witness_LoaderBuildsWellFormedImages :
    build Config.small [0x5B#8, 0x5D#8] = .image { prog := [0x5B#8, 0x5D#8], table := [some 1, some 0] } := by
  decide
theorem witness_JumpTableSymmetric :
    Config.small.wf = true ∧ echo.image.wf Config.small = true ∧ echo.image.jumpTarget 1 = some 4 := by
  decide
theorem witness_StepRunsDecodedInstruction :
    echo.fsm = .running ∧ echo.image.fetch echo.pc = some 0x2C#8 ∧ decode 0x2C#8 = .instr .input := by
  decide
theorem witness_EndCheck :
    ({ echo with pc := 5 }).image.count ≤ 5 ∧
    (stepped { echo with pc := 5 }).map (·.fsm) = some .endOfProgram := by decide
theorem witness_IllegalInstructionByte :
    (eng [0x41#8] []).fsm = .running ∧ (eng [0x41#8] []).image.fetch 0 = some 0x41#8 ∧
    (0x41#8 : Byte) ∉ [0x3E#8, 0x3C#8, 0x2B#8, 0x2D#8, 0x2E#8, 0x2C#8, 0x5B#8, 0x5D#8] ∧
    echo.image.wf Config.small = true ∧ echo.image.fetch 4 = some 0x5D#8 := by decide
theorem witness_TerminalSteps :
    ({ echo with fsm := .endOfProgram } : State).terminal = true ∧
    ({ echo with fsm := .faulted, faultCause := .inputSourceFailure } : State).terminal = true := by decide
theorem witness_CommitAdvancesCounter :
    ({ echo with answers := [.data 1#8] }).pc < echo.image.count ∧
    (stepped { echo with answers := [.data 1#8] }).map (fun t => (t.fsm, t.wait)) =
      some (.running, .idle) := by decide
theorem witness_FaultingStepWritesNoState :
    (stepped { echo with answers := [.fail] }).map (·.fsm) = some .faulted ∧
    (stepped { echo with pc := 2, mp := 4 }).map (·.fsm) = some .faulted := by decide
/-- One running state for each cause of `FaultCausesExact` and each clause of `FaultOrder`. -/
theorem witness_FaultCausesExact :
    (stepped { echo with pc := 2, mp := 4 }).map (·.faultCause) = some .readAccessViolation ∧
    (stepped { echo with mp := 4, answers := [.data 1#8] }).map (·.faultCause) =
      some .writeAccessViolation ∧
    (stepped { echo with mp := 4, answers := [.fail] }).map (·.faultCause) = some .inputSourceFailure ∧
    (stepped { eng [0x41#8] [] with mp := 4 }).map (·.faultCause) = some .illegalInstruction ∧
    (stepped (eng [0x5B#8] [])).map (·.faultCause) = some .missingJumpTarget := by decide
theorem witness_FaultOrder :
    (stepped { echo with pc := 5, mp := 4 }).map (·.fsm) = some .endOfProgram ∧
    (stepped { eng [0x5B#8] [] with mp := 4 }).map (·.faultCause) = some .readAccessViolation ∧
    (stepped { echo with pc := 4 }).map (·.fsm) = some .running ∧
    (stepped { echo with pc := 1, tape := [(0, 1#8)] }).map (·.fsm) = some .running := by decide
theorem witness_OnlyArrowsMovePointer :
    (stepped (eng [0x3E#8] [])).map (·.mp) = some 1 ∧ (eng [0x3E#8] []).mp = 0 := by decide
theorem witness_TapeChangesOnlyAtPointer :
    (eng [0x2B#8] []).tape.wf = true ∧ (stepped (eng [0x2B#8] [])).map (·.tape) = some [(0, 1#8)] := by decide
theorem witness_StreamsInExecutionOrder :
    (stepped { echo with pc := 2 }).map (·.emitted) = some [0#8] ∧
    (stepped { echo with answers := [.data 1#8, .fail] }).map (·.answers) = some [.fail] := by decide
theorem witness_ResetInvariant :
    Config.small.wf = true ∧ echo.image.wf Config.small = true ∧ Config.ref.wf = true ∧
    Image.wf Config.ref Image.empty = true := by decide
theorem witness_CounterNeverWraps :
    echo.fsm = .running ∧ echo.pc < echo.image.count ∧
    (stepped { echo with answers := [.data 1#8] }).map (·.resp) = some (some (.executed echo.pc)) := by decide
theorem witness_StepKeepsInvariant : echo.Inv ∧ (stepped echo).isSome = true :=
  ⟨witness_admitted.inv, by decide⟩
theorem witness_HostKeepsAdmitted :
    echo.Admitted ∧ (nextOf (hostStep .request echo)).isSome = true ∧
    (nextOf (hostStep (.ready .fail) echo)).isSome = true := ⟨witness_admitted, by decide, by decide⟩
theorem witness_BuiltProgramsRaiseNoDefensiveFault :
    build Config.small [0x2C#8, 0x5B#8, 0x2E#8, 0x2C#8, 0x5D#8] = .image echo.image ∧
    nextOf (boot Config.small echo.image) = some echo ∧
    (nextOf (hostRun [.request, .answer (.data 1#8), .request] echo)).map (·.pc) = some 2 := by decide
theorem witness_TapeAccessPrimitives :
    3 < echo.cfg.tapeLen ∧ echo.cfg.tapeLen ≤ 4 ∧ echo.tape.wf = true ∧
    echo.cfg.tapeLen ≤ ({ echo with mp := 4 } : State).mp := by decide
theorem witness_WritesOverwriteAndCommute : Memory.wf [(0, 1#8), (3, 255#8)] = true ∧ (0 : Nat) ≠ 3 := by decide
theorem witness_EqualReadsEqualMemory : Memory.wf [(0, 1#8)] = true ∧ ∀ a, Memory.read [(0, 1#8)] a =
    Memory.read [(0, 1#8)] a := ⟨by decide, fun _ => rfl⟩
theorem witness_PtrIncResult :
    echo.cfg.wf = true ∧ ({ echo with mp := 3 } : State).mp + 1 = echo.cfg.tapeLen ∧
    ({ echo with mp := 255 } : State).mp = 2 ^ echo.cfg.mpW - 1 := by decide
theorem witness_PtrDecResult : echo.cfg.wf = true ∧ echo.mp = 0 := by decide
theorem witness_PointerMovesAreInverse : ({ echo with mp := 255 } : State).mp < 2 ^ echo.cfg.mpW := by decide
/-- In bounds at the last cell and out of bounds right past it, for every cell instruction. -/
theorem witness_CellInstructions :
    ({ echo with mp := 3 } : State).mp < echo.cfg.tapeLen ∧
    echo.cfg.tapeLen ≤ ({ echo with mp := 4 } : State).mp := by decide
theorem witness_OutputResult :
    echo.mp < echo.cfg.tapeLen ∧ echo.sinkReady = true ∧
    ({ echo with sinkReady := false } : State).sinkReady = false := by decide
theorem witness_InputResult :
    ({ echo with answers := [.data 255#8] } : State).answers = .data 255#8 :: [] ∧
    ({ echo with answers := [.fail, .fail] } : State).answers = .fail :: [.fail] ∧
    echo.answers = [] := by decide
theorem witness_LoopResults :
    echo.tape.read echo.mp = 0#8 ∧ Memory.read [(0, 1#8)] 0 ≠ 0#8 ∧
    echo.image.jumpTarget 1 = some 4 ∧ echo.image.jumpTarget 4 = some 1 ∧
    (eng [0x5B#8] []).image.jumpTarget 0 = none := by decide
theorem witness_LoopPairContinues :
    ({ echo with pc := 1 } : State).Admitted ∧ echo.image.fetch 1 = some 0x5B#8 ∧
    echo.image.jumpTarget 1 = some 4 ∧ ({ echo with pc := 4 } : State).Admitted :=
  ⟨⟨⟨by decide, by decide, by decide, by decide, by decide, by decide, by decide, by decide,
    fun _ h => nomatch h⟩, by decide, by decide, by decide, by decide⟩, by decide, by decide,
   ⟨⟨by decide, by decide, by decide, by decide, by decide, by decide, by decide, by decide,
    fun _ h => nomatch h⟩, by decide, by decide, by decide, by decide⟩⟩
/-- Each instruction of the frame statements answers a next state, in and out of bounds. -/
theorem witness_Frames :
    (∀ i ∈ [Instr.ptrInc, .ptrDec, .cellInc, .cellDec, .output, .input, .loopStart, .loopEnd],
      (nextOf (exec i echo)).isSome = true ∧ (nextOf (exec i { echo with mp := 4 })).isSome = true) ∧
    echo.tape.wf = true := by decide
theorem witness_InputWaitHolds :
    echo.fsm = .running ∧ echo.image.fetch echo.pc = some 0x2C#8 ∧ echo.answers = [] := by decide
theorem witness_OutputWaitHolds :
    ({ echo with pc := 2, sinkReady := false } : State).fsm = .running ∧
    echo.image.fetch 2 = some 0x2E#8 ∧ echo.mp < echo.cfg.tapeLen := by decide
theorem witness_ResetInAnyState :
    ({ echo with fsm := .faulted, faultCause := .inputSourceFailure } : State).terminal = true ∧
    HostEvent.request ≠ .reset ∧
    (nextOf (hostStep .request { echo with fsm := .faulted, faultCause := .inputSourceFailure })).isSome =
      true := by decide
theorem witness_ResetDuringWait :
    (stepped echo).map (fun s => decide (s.wait ≠ .idle)) = some true ∧
    (stepped { echo with pc := 2, sinkReady := false }).map (fun s => decide (s.wait ≠ .idle)) =
      some true := by decide
theorem witness_ImageFixedDuringSession :
    refusalOf (hostStep (.place Image.empty) echo) = some .imageChangedInSession ∧
    (nextOf (hostStep .request echo)).isSome = true := by decide
theorem witness_BootAdmitsWellFormedOnly :
    refusalOf (boot { Config.small with tapeLen := 0 } Image.empty) = some .configNotAdmitted ∧
    refusalOf (boot Config.small { prog := [0x41#8], table := [] }) = some .imageNotWellFormed ∧
    build Config.small [0x5B#8] = .error .loopStartWithoutEnd := by decide
theorem witness_BuiltProgramsBoot :
    Config.small.wf = true ∧
    build Config.small [0x2B#8] = .image { prog := [0x2B#8], table := [none] } := by decide
theorem witness_HostReadPort :
    echo.wait = .idle ∧ 3 < echo.cfg.tapeLen ∧ echo.cfg.tapeLen ≤ 4 ∧
    (stepped echo).map (fun s => s.hostRead .pc) = some none := by decide
theorem witness_EnginesIndependent :
    (1 : Nat) ≠ 0 ∧ ([echo, echo] : List State)[0]? = ([echo] : List State)[0]? := by decide

end Sys2Proof.Tests
end

section
/-! What the configuration check of R7 accepts, and what follows from it for addresses and the counter. -/

namespace Sys2Proof

/-- The configuration check, read off item by item: the three constraints of R7. -/
theorem Config.wf_iff (c : Config) :
    c.wf = true ↔ (1 ≤ c.mpW ∧ 1 ≤ c.pcW) ∧ (1 ≤ c.tapeLen ∧ c.tapeLen < 2 ^ c.mpW) ∧
      c.progMax ≤ 2 ^ c.pcW - 1 := by
  simp only [Config.wf, Config.widthsOk, Config.tapeOk, Config.progOk, Bool.and_eq_true,
    decide_eq_true_eq, and_assoc]

/-- The address one past the last cell is a value of the memory pointer. -/
theorem Config.tapeLen_lt_of_wf {c : Config} (h : c.wf = true) : c.tapeLen < 2 ^ c.mpW := by
  obtain ⟨-, ⟨-, hlt⟩, -⟩ := c.wf_iff.mp h
  exact hlt

/-- The end value `pc = N` of the longest admitted program does not wrap the counter. -/
theorem Config.progMax_lt_of_wf {c : Config} (h : c.wf = true) : c.progMax < 2 ^ c.pcW := by
  obtain ⟨-, -, hle⟩ := c.wf_iff.mp h
  exact Nat.lt_of_le_pred (Nat.two_pow_pos c.pcW) hle

/-- Settles O1: the check is R7 by `Config.wf_iff`; the unmapped address is `TAPE_LEN` itself, and an
admitted length is at most `PROG_MAX`, which the counter holds. -/
theorem configConstraints : Obligations.ConfigConstraints := by
  intro c
  refine ⟨c.wf_iff, fun h => ⟨⟨c.tapeLen, Config.tapeLen_lt_of_wf h, le_rfl⟩, fun n hn => ?_⟩⟩
  exact hn.trans_lt (Config.progMax_lt_of_wf h)

end Sys2Proof
end

section
/-! A canonical memory is determined by its reads, so two memories built by writes are compared read by
read (R23, R35). -/

namespace Sys2Proof.Machine

/-- The first listed cell of a canonical memory is listed by every canonical memory with the same reads:
the other's first address is not past it. -/
theorem Memory.head_le_of_read_eq {a b : Nat} {v w : Byte} {m n : Memory}
    (hm : Memory.wf ((a, v) :: m) = true) (hn : Memory.wf ((b, w) :: n) = true)
    (h : Memory.read ((a, v) :: m) a = Memory.read ((b, w) :: n) a) : b ≤ a := by
  by_contra hlt
  obtain ⟨hv, -, -⟩ := (Memory.wf_cons_iff a v m).1 hm
  obtain ⟨-, hb, -⟩ := (Memory.wf_cons_iff b w n).1 hn
  have hpast : ∀ c ∈ (b, w) :: n, a < c.1 := by
    rintro c (_ | ⟨_, hc⟩)
    · omega
    · exact (not_le.1 hlt).trans (hb c hc)
  have hread : Memory.read ((a, v) :: m) a = v := by simp [Memory.read]
  exact hv (hread.symm.trans (h.trans (Memory.read_of_lt _ a hpast)))

/-- A canonical memory that reads as unlisted everywhere lists nothing. -/
theorem Memory.eq_nil_of_read {m : Memory} (hm : m.wf = true)
    (h : ∀ a, m.read a = Memory.unlisted) : m = [] := by
  match m, hm, h with
  | [], _, _ => rfl
  | (a, v) :: rest, hm, h =>
    have hv : v = Memory.unlisted := by simpa [Memory.read] using h a
    exact absurd hv ((Memory.wf_cons_iff a v rest).1 hm).1

/-- The tails of two canonical memories with the same first cell and the same reads read the same. -/
theorem Memory.read_tail_eq {a : Nat} {v w : Byte} {m n : Memory}
    (hm : Memory.wf ((a, v) :: m) = true) (hn : Memory.wf ((a, w) :: n) = true)
    (h : ∀ c, Memory.read ((a, v) :: m) c = Memory.read ((a, w) :: n) c) (c : Nat) :
    Memory.read m c = Memory.read n c := by
  obtain ⟨-, ham, -⟩ := (Memory.wf_cons_iff a v m).1 hm
  obtain ⟨-, han, -⟩ := (Memory.wf_cons_iff a w n).1 hn
  by_cases hc : c = a
  · rw [hc, Memory.read_of_lt m a ham, Memory.read_of_lt n a han]
  · simpa [Memory.read, hc] using h c

/-- Canonical memories are equal when they read the same everywhere. -/
theorem Memory.ext_read (m : Memory) : ∀ n : Memory, m.wf = true → n.wf = true →
    (∀ a, m.read a = n.read a) → m = n := by
  induction m with
  | nil => exact fun n _ hn h => (Memory.eq_nil_of_read hn fun a => (h a).symm).symm
  | cons c m ih =>
    obtain ⟨a, v⟩ := c
    intro n hm hn h
    match n, hn, h with
    | [], _, h => exact Memory.eq_nil_of_read hm h
    | (b, w) :: n, hn, h =>
      have hab : a = b := le_antisymm (Memory.head_le_of_read_eq hn hm (h b).symm)
        (Memory.head_le_of_read_eq hm hn (h a))
      subst hab
      have hvw : v = w := by simpa [Memory.read] using h a
      rw [hvw, ih n (Memory.wf_tail hm) (Memory.wf_tail hn) (Memory.read_tail_eq hm hn h)]

/-- Settles O32, by `Memory.ext_read`: equal reads force equal first cells and equal tails. -/
theorem equalReadsEqualMemory : Obligations.EqualReadsEqualMemory := Memory.ext_read

/-- The later write to a cell wins. -/
theorem Memory.write_write_same (m : Memory) (a : Nat) (v w : Byte) (hm : m.wf = true) :
    (m.write a v).write a w = m.write a w := by
  have hv := Memory.write_wf m a v hm
  refine Memory.ext_read _ _ (Memory.write_wf _ a w hv) (Memory.write_wf m a w hm) fun c => ?_
  rw [Memory.read_write _ _ _ _ hv, Memory.read_write _ _ _ _ hm, Memory.read_write _ _ _ _ hm]
  split <;> rfl

/-- Writes to different cells commute. -/
theorem Memory.write_write_comm (m : Memory) {a b : Nat} (v w : Byte) (hm : m.wf = true)
    (hab : a ≠ b) : (m.write a v).write b w = (m.write b w).write a v := by
  have hv := Memory.write_wf m a v hm
  have hw := Memory.write_wf m b w hm
  refine Memory.ext_read _ _ (Memory.write_wf _ b w hv) (Memory.write_wf _ a v hw) fun c => ?_
  rw [Memory.read_write _ _ _ _ hv, Memory.read_write _ _ _ _ hm, Memory.read_write _ _ _ _ hw,
    Memory.read_write _ _ _ _ hm]
  by_cases hca : c = a
  · simp [hca, hab]
  · simp [hca]

/-- Settles O31: both sides are canonical and read the same at every cell. -/
theorem writesOverwriteAndCommute : Obligations.WritesOverwriteAndCommute := fun m a _ v w hm =>
  ⟨Memory.write_write_same m a v w hm, Memory.write_write_comm m v w hm⟩

end Sys2Proof.Machine
end

section
/-! What the image check of R54 and R55 gives at a program index. -/

namespace Sys2Proof

/-- The image check, part by part. -/
theorem Image.wf_iff (c : Config) (img : Image) :
    img.wf c = true ↔ img.lengthOk c = true ∧ img.bytesOk = true ∧ img.domainOk = true ∧
      img.tableOk = true := by
  simp only [Image.wf, Bool.and_eq_true, and_assoc]

/-- R54: a byte fetched from a well-formed image is one of the eight. -/
theorem Image.isOpcode_of_wf {c : Config} {img : Image} {i : Nat} {b : Byte} (hw : img.wf c = true)
    (hf : img.fetch i = some b) : isOpcode b = true := by
  obtain ⟨-, hbytes, -, -⟩ := (Image.wf_iff c img).1 hw
  exact List.all_eq_true.1 hbytes b (List.mem_of_getElem? hf)

/-- R55: the entry at every program index of a well-formed image passes its check. -/
theorem Image.entryOk_of_wf {c : Config} {img : Image} {i : Nat} (hw : img.wf c = true)
    (hi : i < img.count) : img.entryOk i = true := by
  obtain ⟨-, -, -, htable⟩ := (Image.wf_iff c img).1 hw
  exact List.all_eq_true.1 htable i (List.mem_range.2 hi)

/-- R55 item 1: the entry of a `[` is the index of a later `]` whose entry leads back. -/
theorem Image.loopStart_target {c : Config} {img : Image} {i : Nat} (hw : img.wf c = true)
    (hf : img.fetch i = some (encode .loopStart)) :
    ∃ j, img.jumpTarget i = some j ∧ img.fetch j = some (encode .loopEnd) ∧
      img.jumpTarget j = some i ∧ i < j := by
  have hok := Image.entryOk_of_wf hw (Machine.Image.lt_of_fetch hf)
  rw [Image.entryOk, if_pos hf] at hok
  unfold Image.startOk at hok
  split at hok
  · cases hok
  next j hj =>
    simp only [Bool.and_eq_true, beq_iff_eq, decide_eq_true_eq] at hok
    obtain ⟨⟨⟨hend, hback⟩, hlt⟩, -⟩ := hok
    exact ⟨j, hj, hend, hback, hlt⟩

/-- R55 item 2: the entry of a `]` is the index of a `[` whose entry leads back. -/
theorem Image.loopEnd_target {c : Config} {img : Image} {j : Nat} (hw : img.wf c = true)
    (hf : img.fetch j = some (encode .loopEnd)) :
    ∃ i, img.jumpTarget j = some i ∧ img.fetch i = some (encode .loopStart) ∧
      img.jumpTarget i = some j := by
  have hok := Image.entryOk_of_wf hw (Machine.Image.lt_of_fetch hf)
  have hne : ¬ img.fetch j = some (encode .loopStart) := by rw [hf]; decide
  rw [Image.entryOk, if_neg hne, if_pos hf] at hok
  unfold Image.endOk at hok
  split at hok
  · cases hok
  next i hi =>
    simp only [Bool.and_eq_true, beq_iff_eq] at hok
    exact ⟨i, hi, hok⟩

/-- Each bracket of a well-formed image has an entry, and the entry is a program index. -/
theorem Image.bracket_target {c : Config} {img : Image} {i : Nat} (hw : img.wf c = true)
    (hf : img.fetch i = some (encode .loopStart) ∨ img.fetch i = some (encode .loopEnd)) :
    ∃ j, img.jumpTarget i = some j ∧ j < img.count := by
  rcases hf with hf | hf
  · obtain ⟨j, hj, hend, -⟩ := Image.loopStart_target hw hf
    exact ⟨j, hj, Machine.Image.lt_of_fetch hend⟩
  · obtain ⟨j, hj, hstart, -⟩ := Image.loopEnd_target hw hf
    exact ⟨j, hj, Machine.Image.lt_of_fetch hstart⟩

end Sys2Proof
end

section
/-! What a step does to each piece of the state, read off `Effect` and `StepEffect` once. -/

namespace Sys2Proof.Machine

section

variable {i : Instr} {s t : State}

/-! ### The parameters and the image -/

theorem Effect.cfg_image (h : Effect i s t) : t.cfg = s.cfg ∧ t.image = s.image := by
  cases h <;> exact ⟨rfl, rfl⟩

theorem StepEffect.cfg_image (h : StepEffect s t) : t.cfg = s.cfg ∧ t.image = s.image := by
  cases h with
  | ran _ _ _ _ he => exact he.cfg_image
  | _ => exact ⟨rfl, rfl⟩

/-! ### The memory pointer -/

theorem Effect.mp (h : Effect i s t) :
    t.mp = s.mp ∨ i = .ptrInc ∧ t.mp = s.mpUp ∨ i = .ptrDec ∧ t.mp = s.mpDown := by
  cases h with
  | moved m hm => exact .inr hm
  | _ => exact .inl rfl

/-- R22: the pointer stays, or a `>` moved it up, or a `<` moved it down. -/
theorem StepEffect.mp (h : StepEffect s t) :
    t.mp = s.mp ∨ s.fsm = .running ∧
      (s.image.fetch s.pc = some (encode .ptrInc) ∧ t.mp = s.mpUp ∨
        s.image.fetch s.pc = some (encode .ptrDec) ∧ t.mp = s.mpDown) := by
  cases h with
  | ran i _ hr hf he =>
    rcases he.mp with hm | ⟨rfl, hm⟩ | ⟨rfl, hm⟩
    · exact .inl hm
    · exact .inr ⟨hr, .inl ⟨hf, hm⟩⟩
    · exact .inr ⟨hr, .inr ⟨hf, hm⟩⟩
  | _ => exact .inl rfl

/-! ### The tape -/

theorem Effect.tape (h : Effect i s t) :
    t.tape = s.tape ∨ (i = .cellInc ∨ i = .cellDec ∨ i = .input) ∧ s.mp < s.cfg.tapeLen ∧
      ∃ v, t.tape = s.tape.write s.mp v := by
  cases h with
  | modified v hv hb =>
    refine .inr ⟨?_, hb, v, rfl⟩
    rcases hv with ⟨rfl, -⟩ | ⟨rfl, -⟩
    · exact .inl rfl
    · exact .inr (.inl rfl)
  | stored b rest hi _ hb => exact .inr ⟨.inr (.inr hi), hb, b, rfl⟩
  | _ => exact .inl rfl

/-- R23: the tape stays, or a `+`, `-` or `,` in bounds wrote the cell at `mp`. -/
theorem StepEffect.tape (h : StepEffect s t) :
    t.tape = s.tape ∨ s.fsm = .running ∧ s.mp < s.cfg.tapeLen ∧
      (s.image.fetch s.pc = some (encode .cellInc) ∨ s.image.fetch s.pc = some (encode .cellDec) ∨
        s.image.fetch s.pc = some (encode .input)) ∧
      ∃ v, t.tape = s.tape.write s.mp v := by
  cases h with
  | ran i _ hr hf he =>
    rcases he.tape with ht | ⟨hi, hb, hv⟩
    · exact .inl ht
    · refine .inr ⟨hr, hb, ?_, hv⟩
      rcases hi with rfl | rfl | rfl
      · exact .inl hf
      · exact .inr (.inl hf)
      · exact .inr (.inr hf)
  | _ => exact .inl rfl

/-! ### The program counter -/

theorem Effect.pc (h : Effect i s t) :
    t.pc = s.pc ∨ t.pc = s.nextPc ∨ (i = .loopStart ∨ i = .loopEnd) ∧
      ∃ j, s.image.jumpTarget s.pc = some j ∧ t.pc = s.pcPast j := by
  cases h with
  | moved | modified | emitted | stored | passed => exact .inr (.inl rfl)
  | jumped j hi _ hj => exact .inr (.inr ⟨hi.imp And.left And.left, j, hj, rfl⟩)
  | _ => exact .inl rfl

/-- R70, R90, R91: the counter stays, or moves on before the program's end, or goes past the entry of a
bracket. -/
theorem StepEffect.pc (h : StepEffect s t) :
    t.pc = s.pc ∨ s.pc < s.image.count ∧ t.pc = s.nextPc ∨
      (s.image.fetch s.pc = some (encode .loopStart) ∨ s.image.fetch s.pc = some (encode .loopEnd)) ∧
        ∃ j, s.image.jumpTarget s.pc = some j ∧ t.pc = s.pcPast j := by
  cases h with
  | ran i _ _ hf he =>
    rcases he.pc with hp | hp | ⟨rfl | rfl, hj⟩
    · exact .inl hp
    · exact .inr (.inl ⟨Image.lt_of_fetch hf, hp⟩)
    · exact .inr (.inr ⟨.inl hf, hj⟩)
    · exact .inr (.inr ⟨.inr hf, hj⟩)
  | _ => exact .inl rfl

/-! ### The two status registers -/

theorem Effect.status (h : Effect i s t) :
    t.fsm = s.fsm ∧ t.faultCause = s.faultCause ∨ t.fsm = .faulted ∧ t.faultCause ≠ .none := by
  cases h with
  | inputFailed | inputLost | noTarget | readViolation | writeViolation =>
    exact .inr ⟨rfl, nofun⟩
  | _ => exact .inl ⟨rfl, rfl⟩

/-- R24, R25: the status stays, or the program ended with the cause left alone, or a cause is set with
`FAULTED`. -/
theorem StepEffect.status (h : StepEffect s t) :
    t.fsm = s.fsm ∧ t.faultCause = s.faultCause ∨
      s.fsm = .running ∧ t.fsm = .endOfProgram ∧ t.faultCause = s.faultCause ∨
      t.fsm = .faulted ∧ t.faultCause ≠ .none := by
  cases h with
  | ended | faulted => exact .inl ⟨rfl, rfl⟩
  | finished hr => exact .inr (.inl ⟨hr, rfl, rfl⟩)
  | illegal => exact .inr (.inr ⟨rfl, nofun⟩)
  | ran _ _ _ _ he => exact he.status.imp_right .inr

/-- A step that leaves the engine in `RUNNING` began there. -/
theorem StepEffect.running_of_running (h : StepEffect s t) (ht : t.fsm = .running) :
    s.fsm = .running := by
  rcases h.status with ⟨hf, -⟩ | ⟨hr, -, -⟩ | ⟨hf, -⟩
  · exact hf.symm.trans ht
  · exact hr
  · rw [hf] at ht; cases ht

theorem Effect.faultCause_eq_illegal (h : Effect i s t) (ht : t.faultCause = .illegalInstruction) :
    s.faultCause = .illegalInstruction := by
  cases h with
  | inputFailed | inputLost | noTarget | readViolation | writeViolation => cases ht
  | _ => exact ht

/-- R97: an illegal instruction is reported only at a byte that is no opcode. -/
theorem StepEffect.faultCause_eq_illegal (h : StepEffect s t)
    (ht : t.faultCause = .illegalInstruction) :
    s.faultCause = .illegalInstruction ∨ ∃ b, s.image.fetch s.pc = some b ∧ isOpcode b = false := by
  cases h with
  | ended | faulted | finished => exact .inl ht
  | illegal b _ hf hb => exact .inr ⟨b, hf, hb⟩
  | ran _ _ _ _ he => exact .inl (he.faultCause_eq_illegal ht)

theorem Effect.faultCause_eq_missing (h : Effect i s t) (ht : t.faultCause = .missingJumpTarget) :
    s.faultCause = .missingJumpTarget ∨
      (i = .loopStart ∨ i = .loopEnd) ∧ s.image.jumpTarget s.pc = none := by
  cases h with
  | noTarget hi _ hj => exact .inr ⟨hi.imp And.left And.left, hj⟩
  | inputFailed | inputLost | readViolation | writeViolation => cases ht
  | _ => exact .inl ht

/-- R98: a missing jump target is reported only at a bracket without an entry. -/
theorem StepEffect.faultCause_eq_missing (h : StepEffect s t)
    (ht : t.faultCause = .missingJumpTarget) :
    s.faultCause = .missingJumpTarget ∨
      (s.image.fetch s.pc = some (encode .loopStart) ∨ s.image.fetch s.pc = some (encode .loopEnd)) ∧
        s.image.jumpTarget s.pc = none := by
  cases h with
  | ended | faulted | finished => exact .inl ht
  | illegal => cases ht
  | ran _ _ _ hf he =>
    rcases he.faultCause_eq_missing ht with hs | ⟨rfl | rfl, hj⟩
    · exact .inl hs
    · exact .inr ⟨.inl hf, hj⟩
    · exact .inr ⟨.inr hf, hj⟩

/-! ### The step in progress -/

theorem Effect.wait (h : Effect i s t) :
    t.wait = .idle ∨ i = .input ∧ s.answers = [] ∧ t = s.holdIn .receive ∨
      i = .output ∧ s.mp < s.cfg.tapeLen ∧ s.sinkReady = false ∧
        t = s.holdIn (.emit (s.tape.read s.mp)) := by
  cases h with
  | asking hi ha => exact .inr (.inl ⟨hi, ha, rfl⟩)
  | offering hi hb hr => exact .inr (.inr ⟨hi, hb, hr, rfl⟩)
  | _ => exact .inl rfl

/-- R26, R116, R117: no step is in progress afterwards, or a `,` holds for an answer, or a `.` holds with
its cell offered. -/
theorem StepEffect.wait (h : StepEffect s t) :
    t.wait = .idle ∨ s.fsm = .running ∧
      (s.fetched = .instr .input ∧ s.answers = [] ∧ t = s.holdIn .receive ∨
        s.fetched = .instr .output ∧ s.mp < s.cfg.tapeLen ∧ s.sinkReady = false ∧
          t = s.holdIn (.emit (s.tape.read s.mp))) := by
  cases h with
  | ran i _ hr hf he =>
    have hfetched : s.fetched = .instr i := (fetchAt_instr_iff _ _ _).2 hf
    rcases he.wait with hw | ⟨rfl, hw⟩ | ⟨rfl, hw⟩
    · exact .inl hw
    · exact .inr ⟨hr, .inl ⟨hfetched, hw⟩⟩
    · exact .inr ⟨hr, .inr ⟨hfetched, hw⟩⟩
  | _ => exact .inl rfl

end

/-- Settles O20, by cases on what the step did. -/
theorem stepKeepsImage : Obligations.StepKeepsImage := fun _ _ h => (step_effect h).cfg_image

/-- Settles O21: of the cases of `StepEffect.mp`, the two that write `mp` are those of the arrows. -/
theorem onlyArrowsMovePointer : Obligations.OnlyArrowsMovePointer := by
  intro s t h hne
  rcases (step_effect h).mp with hm | ⟨hr, ⟨hf, -⟩ | ⟨hf, -⟩⟩
  · exact absurd hm hne
  · exact ⟨hr, .inl hf⟩
  · exact ⟨hr, .inr hf⟩

/-- Settles O22: the only write there can be is the one at `mp`, and it leaves every other cell. -/
theorem tapeChangesOnlyAtPointer : Obligations.TapeChangesOnlyAtPointer := by
  intro s t hw h
  rcases (step_effect h).tape with ht | ⟨hr, hb, hf, v, ht⟩
  · exact ⟨fun a _ => by rw [ht], fun hne => absurd ht hne⟩
  · refine ⟨fun a ha => ?_, fun _ => ⟨hr, hb, hf⟩⟩
    rw [ht, Memory.read_write _ _ _ _ hw, if_neg ha]

end Sys2Proof.Machine
end

section
/-! The invariant. A step may begin in a state whose wait is just being lifted (an answer has come, the
sink has turned ready), where the clauses of `State.Inv` about the step in progress fail. So the step
lemmas assume only the other clauses, and the step sets up the clauses about waiting afresh. -/

namespace Sys2Proof.Machine

/-- The clauses of `State.Inv` that do not speak of the step in progress. -/
structure State.EngineInv (s : State) : Prop where
  config : s.cfg.wf = true
  pcRange : s.pc < 2 ^ s.cfg.pcW
  mpRange : s.mp < 2 ^ s.cfg.mpW
  tapeWf : s.tape.wf = true
  tapeBelow : s.tape.below s.cfg.tapeLen = true
  cause : s.faultCause ≠ .none ↔ s.fsm = .faulted

/-- The clauses of `State.Admitted` about the program: R54, R55, R77, R97 and R98. -/
structure State.ProgramInv (s : State) : Prop where
  image : s.image.wf s.cfg = true
  pcBound : s.fsm = .running → s.pc ≤ s.image.count
  legal : s.faultCause ≠ .illegalInstruction
  target : s.faultCause ≠ .missingJumpTarget

section

variable {s t : State}

theorem State.Inv.engineInv (h : s.Inv) : s.EngineInv :=
  ⟨h.config, h.pcRange, h.mpRange, h.tapeWf, h.tapeBelow, h.cause⟩

/-- With no step in progress, the clauses about waiting hold of themselves. -/
theorem State.EngineInv.inv_of_idle (h : s.EngineInv) (hw : s.wait = .idle) : s.Inv where
  config := h.config
  pcRange := h.pcRange
  mpRange := h.mpRange
  tapeWf := h.tapeWf
  tapeBelow := h.tapeBelow
  cause := h.cause
  waiting hne := absurd hw hne
  receiving hr := by rw [hw] at hr; cases hr
  emitting b he := by rw [hw] at he; cases he

theorem State.Admitted.programInv (h : s.Admitted) : s.ProgramInv :=
  ⟨h.image, h.pcBound, h.legal, h.target⟩

theorem State.Inv.admitted (h : s.Inv) (hp : s.ProgramInv) : s.Admitted :=
  ⟨h, hp.image, hp.pcBound, hp.legal, hp.target⟩

/-! ### A step -/

theorem StepEffect.pc_lt (h : StepEffect s t) (hs : s.pc < 2 ^ s.cfg.pcW) : t.pc < 2 ^ s.cfg.pcW := by
  rcases h.pc with hp | ⟨-, hp⟩ | ⟨-, j, -, hp⟩
  · exact hp ▸ hs
  · exact hp ▸ Nat.mod_lt _ (Nat.two_pow_pos _)
  · exact hp ▸ Nat.mod_lt _ (Nat.two_pow_pos _)

theorem StepEffect.mp_lt (h : StepEffect s t) (hs : s.mp < 2 ^ s.cfg.mpW) : t.mp < 2 ^ s.cfg.mpW := by
  rcases h.mp with hm | ⟨-, ⟨-, hm⟩ | ⟨-, hm⟩⟩
  · exact hm ▸ hs
  · exact hm ▸ Nat.mod_lt _ (Nat.two_pow_pos _)
  · exact hm ▸ Nat.mod_lt _ (Nat.two_pow_pos _)

theorem StepEffect.tape_wf_below (h : StepEffect s t) (hw : s.tape.wf = true)
    (hb : s.tape.below s.cfg.tapeLen = true) :
    t.tape.wf = true ∧ t.tape.below s.cfg.tapeLen = true := by
  rcases h.tape with ht | ⟨-, hmp, -, v, ht⟩
  · exact ht ▸ ⟨hw, hb⟩
  · exact ht ▸ ⟨Memory.write_wf _ _ v hw, Memory.write_below _ _ _ v hmp hb⟩

theorem StepEffect.cause_iff (h : StepEffect s t) (hs : s.faultCause ≠ .none ↔ s.fsm = .faulted) :
    t.faultCause ≠ .none ↔ t.fsm = .faulted := by
  rcases h.status with ⟨hf, hc⟩ | ⟨hr, hf, hc⟩ | ⟨hf, hc⟩
  · rw [hf, hc, hs]
  · simp [hf, hc, hs, hr]
  · exact ⟨fun _ => hf, fun _ => hc⟩

theorem StepEffect.engineInv (h : StepEffect s t) (hs : s.EngineInv) : t.EngineInv := by
  obtain ⟨hcfg, -⟩ := h.cfg_image
  obtain ⟨hw, hb⟩ := h.tape_wf_below hs.tapeWf hs.tapeBelow
  constructor
  case cause => exact h.cause_iff hs.cause
  case tapeWf => exact hw
  all_goals rw [hcfg]
  case config => exact hs.config
  case pcRange => exact h.pc_lt hs.pcRange
  case mpRange => exact h.mp_lt hs.mpRange
  case tapeBelow => exact hb

/-- A `,` that holds with no answer ready waits for what its instruction waits for. -/
theorem State.EngineInv.inv_holdIn_receive (hs : s.EngineInv) (hr : s.fsm = .running)
    (hf : s.fetched = .instr .input) (ha : s.answers = []) : (s.holdIn .receive).Inv where
  config := hs.config
  pcRange := hs.pcRange
  mpRange := hs.mpRange
  tapeWf := hs.tapeWf
  tapeBelow := hs.tapeBelow
  cause := hs.cause
  waiting _ := ⟨hr, rfl⟩
  receiving _ := ⟨hf, ha⟩
  emitting _ he := nomatch he

/-- A `.` that holds with its cell offered waits for what its instruction waits for. -/
theorem State.EngineInv.inv_holdIn_emit (hs : s.EngineInv) (hr : s.fsm = .running)
    (hf : s.fetched = .instr .output) (hb : s.mp < s.cfg.tapeLen) (hk : s.sinkReady = false) :
    (s.holdIn (.emit (s.tape.read s.mp))).Inv where
  config := hs.config
  pcRange := hs.pcRange
  mpRange := hs.mpRange
  tapeWf := hs.tapeWf
  tapeBelow := hs.tapeBelow
  cause := hs.cause
  waiting _ := ⟨hr, rfl⟩
  receiving he := nomatch he
  emitting _ he := ⟨hf, hb, Wait.emit.inj he, hk⟩

/-- A step sets up the whole invariant, whatever wait it began in. -/
theorem step_inv (hs : s.EngineInv) (h : step s = .next t) : t.Inv := by
  have he := step_effect h
  rcases he.wait with hw | ⟨hr, ⟨hf, ha, rfl⟩ | ⟨hf, hb, hk, rfl⟩⟩
  · exact (he.engineInv hs).inv_of_idle hw
  · exact hs.inv_holdIn_receive hr hf ha
  · exact hs.inv_holdIn_emit hr hf hb hk

/-- R77: the counter stays within a well-formed program, since the entry of a bracket is a program
index. -/
theorem StepEffect.pc_le_count (h : StepEffect s t) (hw : s.image.wf s.cfg = true)
    (hs : s.pc ≤ s.image.count) : t.pc ≤ s.image.count := by
  rcases h.pc with hp | ⟨hlt, hp⟩ | ⟨hf, j, hj, hp⟩
  · exact hp ▸ hs
  · calc t.pc = (s.pc + 1) % rangeOf s.cfg.pcW := hp
      _ ≤ s.pc + 1 := Nat.mod_le _ _
      _ ≤ s.image.count := hlt
  · obtain ⟨k, hk, hlt⟩ := Image.bracket_target hw hf
    have hjk : j = k := Option.some.inj (hj.symm.trans hk)
    calc t.pc = (j + 1) % rangeOf s.cfg.pcW := hp
      _ ≤ j + 1 := Nat.mod_le _ _
      _ ≤ s.image.count := hjk ▸ hlt

theorem StepEffect.programInv (h : StepEffect s t) (hs : s.ProgramInv) : t.ProgramInv := by
  obtain ⟨hcfg, himg⟩ := h.cfg_image
  constructor
  case image => rw [hcfg, himg]; exact hs.image
  case pcBound =>
    intro hr
    rw [himg]
    exact h.pc_le_count hs.image (hs.pcBound (h.running_of_running hr))
  case legal =>
    intro hc
    rcases h.faultCause_eq_illegal hc with hs' | ⟨b, hf, hb⟩
    · exact hs.legal hs'
    · simp [Image.isOpcode_of_wf hs.image hf] at hb
  case target =>
    intro hc
    rcases h.faultCause_eq_missing hc with hs' | ⟨hf, hnone⟩
    · exact hs.target hs'
    · obtain ⟨j, hj, -⟩ := Image.bracket_target hs.image hf
      simp [hj] at hnone

/-- A step from an admitted engine, its wait lifted or not, leads to an admitted state. -/
theorem step_admitted (hs : s.EngineInv) (hp : s.ProgramInv) (h : step s = .next t) : t.Admitted :=
  (step_inv hs h).admitted ((step_effect h).programInv hp)

/-! ### The other acts of the host -/

theorem State.EngineInv.addAnswer (h : s.EngineInv) (x : InputAnswer) : (s.addAnswer x).EngineInv :=
  ⟨h.config, h.pcRange, h.mpRange, h.tapeWf, h.tapeBelow, h.cause⟩

theorem State.ProgramInv.addAnswer (h : s.ProgramInv) (x : InputAnswer) :
    (s.addAnswer x).ProgramInv :=
  ⟨h.image, h.pcBound, h.legal, h.target⟩

theorem State.EngineInv.setSinkReady (h : s.EngineInv) (r : Bool) : (s.setSinkReady r).EngineInv :=
  ⟨h.config, h.pcRange, h.mpRange, h.tapeWf, h.tapeBelow, h.cause⟩

theorem State.ProgramInv.setSinkReady (h : s.ProgramInv) (r : Bool) : (s.setSinkReady r).ProgramInv :=
  ⟨h.image, h.pcBound, h.legal, h.target⟩

/-- An answer made ready while no `,` step waits keeps the invariant. -/
theorem State.Inv.addAnswer (h : s.Inv) (x : InputAnswer) (hw : s.wait ≠ .receive) :
    (s.addAnswer x).Inv :=
  { h with receiving := fun hr => absurd hr hw }

/-- A `.` step that waits offers a byte. -/
theorem State.offering_of_emit {b : Byte} (h : s.wait = .emit b) : s.offering = true := by
  simp [State.offering, h]

/-- A level of the sink that takes no byte from a waiting `.` step keeps the invariant. -/
theorem State.Inv.setSinkReady (h : s.Inv) (r : Bool) (hr : ¬ (r && s.offering) = true) :
    (s.setSinkReady r).Inv :=
  { h with
    emitting := fun b hb => by
      obtain ⟨hf, hmp, hread, -⟩ := h.emitting b hb
      have hoffering : s.offering = true := State.offering_of_emit hb
      have hlow : r = false := by simpa [hoffering] using hr
      exact ⟨hf, hmp, hread, hlow⟩ }

/-- R26: outside `RUNNING` no step is in progress. -/
theorem State.Inv.wait_eq_idle (h : s.Inv) (hf : s.fsm ≠ .running) : s.wait = .idle := by
  by_contra hne
  exact hf (h.waiting hne).1

theorem State.Admitted.withImage (h : s.Admitted) {img : Image} (hf : s.fsm ≠ .running)
    (hw : img.wf s.cfg = true) : (s.withImage img).Admitted where
  inv :=
    have hs := h.inv.engineInv
    have hs' : (s.withImage img).EngineInv :=
      ⟨hs.config, hs.pcRange, hs.mpRange, hs.tapeWf, hs.tapeBelow, hs.cause⟩
    hs'.inv_of_idle (h.inv.wait_eq_idle hf)
  image := hw
  pcBound hr := absurd hr hf
  legal := h.legal
  target := h.target

/-- R30, R110: reset admits every engine with parameters of this hardware and a well-formed image. -/
theorem State.applyReset_admitted (hc : s.cfg.wf = true) (hw : s.image.wf s.cfg = true) :
    s.applyReset.Admitted where
  inv :=
    have hs : s.applyReset.EngineInv :=
      ⟨hc, Nat.two_pow_pos _, Nat.two_pow_pos _, rfl, rfl, by simp⟩
    hs.inv_of_idle rfl
  image := hw
  pcBound _ := Nat.zero_le _
  legal := nofun
  target := nofun

/-- The state after reset is one that reset leaves as it is. -/
theorem State.applyReset_resetOf (c : Config) (img : Image) :
    (State.resetOf c img).applyReset = State.resetOf c img := rfl

theorem State.resetOf_admitted {c : Config} {img : Image} (hc : c.wf = true) (hw : img.wf c = true) :
    (State.resetOf c img).Admitted := by
  rw [← State.applyReset_resetOf]
  exact State.applyReset_admitted hc hw

theorem hostRequest_admitted (hs : s.Admitted) (h : hostRequest s = .next t) : t.Admitted := by
  unfold hostRequest at h
  split at h
  · exact step_admitted hs.inv.engineInv hs.programInv h
  · cases h

theorem step_addAnswer_admitted (hs : s.Admitted) (x : InputAnswer)
    (h : step (s.addAnswer x) = .next t) : t.Admitted :=
  step_admitted (hs.inv.engineInv.addAnswer x) (hs.programInv.addAnswer x) h

theorem hostAnswer_admitted (hs : s.Admitted) {x : InputAnswer} (h : hostAnswer x s = .next t) :
    t.Admitted := by
  unfold hostAnswer at h
  split at h
  · exact step_addAnswer_admitted hs x h
  · cases h; exact hs

theorem hostReady_admitted (hs : s.Admitted) {x : InputAnswer} (h : hostReady x s = .next t) :
    t.Admitted := by
  unfold hostReady at h
  split at h
  · exact step_addAnswer_admitted hs x h
  next hw => cases h; exact (hs.inv.addAnswer x hw).admitted (hs.programInv.addAnswer x)

theorem hostSink_admitted (hs : s.Admitted) {r : Bool} (h : hostSink r s = .next t) : t.Admitted := by
  unfold hostSink at h
  split at h
  · exact step_admitted (hs.inv.engineInv.setSinkReady r) (hs.programInv.setSinkReady r) h
  next hr => cases h; exact (hs.inv.setSinkReady r hr).admitted (hs.programInv.setSinkReady r)

theorem hostPlace_admitted (hs : s.Admitted) {img : Image} (h : hostPlace img s = .next t) :
    t.Admitted := by
  unfold hostPlace at h
  split at h
  · cases h
  next hf =>
    split at h
    next hw => cases h; exact hs.withImage hf hw
    · cases h

end

/-- Settles O27, by `step_inv`: clause by clause from what a step does to each piece of the state. -/
theorem stepKeepsInvariant : Obligations.StepKeepsInvariant := fun _ _ hs h => step_inv hs.engineInv h

/-- Settles O26: the second part is the first at `REF` and the empty program, which pass their checks. -/
theorem resetInvariant : Obligations.ResetInvariant :=
  ⟨fun _ _ hc hw => State.resetOf_admitted hc hw, State.resetOf_admitted (by decide) (by decide)⟩

/-- Settles O28, one lemma per act: a step sets up the invariant afresh (`step_admitted`), and the acts
that make no step keep or empty the wait. -/
theorem hostKeepsAdmitted : Obligations.HostKeepsAdmitted := by
  intro e s t hs h
  cases e with
  | request => exact hostRequest_admitted hs h
  | answer x => exact hostAnswer_admitted hs h
  | ready x => exact hostReady_admitted hs h
  | sink r => exact hostSink_admitted hs h
  | reset => cases h; exact State.applyReset_admitted hs.inv.config hs.image
  | place img => exact hostPlace_admitted hs h

end Sys2Proof.Machine
end

section
/-! The step in progress, the last response and the bytes emitted do not steer a step: each way a step
can end answers alike from two states that differ in those fields only. -/

namespace Sys2Proof.Machine

/-- The state with another step in progress, another last response and other bytes emitted. -/
def State.observed (w : Wait) (r : Option Response) (e : List Byte) (s : State) : State :=
  { s with wait := w, resp := r, emitted := e }

/-- Both outcomes are next states, equal but for the bytes emitted before the step, `d` and `e`: the step
adds the same bytes to both. -/
def Alike (d e : List Byte) (o p : Host.Outcome State Fault Refusal) : Prop :=
  ∃ t u sent, o = .next t ∧ p = .next u ∧ t.emitted = d ++ sent ∧ u = { t with emitted := e ++ sent }

section

variable (w : Wait) (r : Option Response) (e : List Byte) (s : State)

/-! ### The ways a step ends -/

theorem alike_of_no_emission {t : State} (h : t.emitted = s.emitted) :
    Alike s.emitted e (.next t) (.next { t with emitted := e }) :=
  ⟨t, _, [], rfl, rfl, by simp [h], by simp⟩

theorem commit_alike (n : Nat) :
    Alike s.emitted e (commit n s) (commit n (s.observed w r e)) := alike_of_no_emission e s rfl

theorem raiseFault_alike (c : FaultCause) :
    Alike s.emitted e (raiseFault c s) (raiseFault c (s.observed w r e)) := alike_of_no_emission e s rfl

theorem hold_alike (v : Wait) :
    Alike s.emitted e (hold v s) (hold v (s.observed w r e)) := alike_of_no_emission e s rfl

theorem finish_alike : Alike s.emitted e (finish s) (finish (s.observed w r e)) :=
  alike_of_no_emission e s rfl

theorem repeatResponse_alike (q : Response) :
    Alike s.emitted e (repeatResponse q s) (repeatResponse q (s.observed w r e)) :=
  alike_of_no_emission e s rfl

theorem commit_handOver_alike (b : Byte) (n : Nat) :
    Alike s.emitted e (commit n (s.handOver b)) (commit n ((s.observed w r e).handOver b)) :=
  ⟨_, _, [b], rfl, rfl, rfl, rfl⟩

theorem emitAndCommit_alike (b : Byte) (n : Nat) :
    Alike s.emitted e (emitAndCommit b n s) (emitAndCommit b n (s.observed w r e)) := by
  have hready : (s.observed w r e).sinkReady = s.sinkReady := rfl
  unfold emitAndCommit
  rw [hready]
  split
  · exact commit_handOver_alike w r e s b n
  · exact hold_alike w r e s _

theorem writeOperand_alike (v : Byte) (n : Nat) :
    Alike s.emitted e (writeOperand v n s) (writeOperand v n (s.observed w r e)) := by
  rcases writeOperand_spec v n s with ⟨hb, h⟩ | ⟨hb, h⟩ <;>
    rcases writeOperand_spec v n (s.observed w r e) with ⟨hb', h'⟩ | ⟨hb', h'⟩
  · rw [h, h']; exact commit_alike w r e (s.setCell s.mp v) n
  · exact absurd hb (not_lt.2 hb')
  · exact absurd hb' (not_lt.2 hb)
  · rw [h, h']; exact raiseFault_alike w r e s _

theorem jumpPastTarget_alike :
    Alike s.emitted e (jumpPastTarget s) (jumpPastTarget (s.observed w r e)) := by
  have htarget : (s.observed w r e).image.jumpTarget (s.observed w r e).pc =
    s.image.jumpTarget s.pc := rfl
  unfold jumpPastTarget
  rw [htarget]
  split
  · exact raiseFault_alike w r e s _
  · exact commit_alike w r e s _

/-! ### What an instruction reads -/

theorem State.observed_readOperand : readOperand (s.observed w r e) = readOperand s := rfl

theorem State.observed_modifyOperand : modifyOperand (s.observed w r e) = modifyOperand s := rfl

theorem State.observed_nextPc : (s.observed w r e).nextPc = s.nextPc := rfl

/-! ### The instructions -/

theorem execCellInc_alike :
    Alike s.emitted e (execCellInc s) (execCellInc (s.observed w r e)) := by
  unfold execCellInc
  rw [State.observed_modifyOperand, State.observed_nextPc]
  cases modifyOperand s with
  | violation c => exact raiseFault_alike w r e s c
  | value v => exact writeOperand_alike w r e s _ _

theorem execCellDec_alike :
    Alike s.emitted e (execCellDec s) (execCellDec (s.observed w r e)) := by
  unfold execCellDec
  rw [State.observed_modifyOperand, State.observed_nextPc]
  cases modifyOperand s with
  | violation c => exact raiseFault_alike w r e s c
  | value v => exact writeOperand_alike w r e s _ _

theorem execOutput_alike :
    Alike s.emitted e (execOutput s) (execOutput (s.observed w r e)) := by
  unfold execOutput
  rw [State.observed_readOperand, State.observed_nextPc]
  cases readOperand s with
  | violation c => exact raiseFault_alike w r e s c
  | value v => exact emitAndCommit_alike w r e s v _

theorem execInput_alike :
    Alike s.emitted e (execInput s) (execInput (s.observed w r e)) := by
  have hanswers : (s.observed w r e).answers = s.answers := rfl
  unfold execInput receive
  rw [hanswers]
  cases s.answers with
  | nil => exact hold_alike w r e s _
  | cons x rest =>
    cases x with
    | fail => exact raiseFault_alike w r e s.dropAnswer _
    | data b => exact writeOperand_alike w r e s.dropAnswer b _

theorem execLoopStart_alike :
    Alike s.emitted e (execLoopStart s) (execLoopStart (s.observed w r e)) := by
  unfold execLoopStart
  rw [State.observed_readOperand, State.observed_nextPc]
  cases readOperand s with
  | violation c => exact raiseFault_alike w r e s c
  | value v =>
    dsimp only
    split
    · exact jumpPastTarget_alike w r e s
    · exact commit_alike w r e s _

theorem execLoopEnd_alike :
    Alike s.emitted e (execLoopEnd s) (execLoopEnd (s.observed w r e)) := by
  unfold execLoopEnd
  rw [State.observed_readOperand, State.observed_nextPc]
  cases readOperand s with
  | violation c => exact raiseFault_alike w r e s c
  | value v =>
    dsimp only
    split
    · exact commit_alike w r e s _
    · exact jumpPastTarget_alike w r e s

theorem exec_alike (i : Instr) : Alike s.emitted e (exec i s) (exec i (s.observed w r e)) := by
  cases i with
  | ptrInc => exact commit_alike w r e (s.setMp s.mpUp) _
  | ptrDec => exact commit_alike w r e (s.setMp s.mpDown) _
  | cellInc => exact execCellInc_alike w r e s
  | cellDec => exact execCellDec_alike w r e s
  | output => exact execOutput_alike w r e s
  | input => exact execInput_alike w r e s
  | loopStart => exact execLoopStart_alike w r e s
  | loopEnd => exact execLoopEnd_alike w r e s

theorem step_alike : Alike s.emitted e (step s) (step (s.observed w r e)) := by
  have hfsm : (s.observed w r e).fsm = s.fsm := rfl
  have hfetched : (s.observed w r e).fetched = s.fetched := rfl
  unfold step
  rw [hfsm, hfetched]
  cases s.fsm with
  | endOfProgram => exact repeatResponse_alike w r e s _
  | faulted => exact repeatResponse_alike w r e s _
  | running =>
    cases s.fetched with
    | ended => exact finish_alike w r e s
    | illegal b => exact raiseFault_alike w r e s _
    | instr i => exact exec_alike w r e s i

end

/-- Settles O25, by `step_alike`: no way a step ends reads the three fields, and each writes the first
two. -/
theorem observationsDoNotSteer : Obligations.ObservationsDoNotSteer := by
  intro s w r e
  obtain ⟨t, u, sent, ht, hu, hsent, rfl⟩ := step_alike w r e s
  exact ⟨t, _, sent, ht, hu, hsent, rfl, rfl⟩

end Sys2Proof.Machine
end

section
/-! What the host sees: the values after reset, the read port and the codes of the status registers. -/

namespace Sys2Proof.Machine

/-- Settles O51: each value is the one `State.resetOf` writes, and an empty tape reads as unlisted. -/
theorem resetValues : Obligations.ResetValues := fun _ _ =>
  ⟨rfl, rfl, Memory.read_nil, rfl, rfl, rfl⟩

/-- R28: with no step in progress the port gives a cell exactly when it is in bounds. -/
theorem State.hostRead_cell {s : State} (h : s.wait = .idle) (a : Nat) :
    s.hostRead (.cell a) = if a < s.cfg.tapeLen then some (s.tape.read a).toNat else none := by
  simp [State.hostRead, h]

/-- R28: the port gives nothing while a step is in progress. -/
theorem State.hostRead_of_waiting {s : State} (h : s.wait ≠ .idle) (q : ReadRequest) :
    s.hostRead q = none := by
  simp [State.hostRead, h]

/-- Settles O56, by cases on whether a step is in progress and, for a cell, on its bounds. -/
theorem hostReadPort : Obligations.HostReadPort := by
  refine fun s => ⟨fun h => ?_, State.hostRead_of_waiting⟩
  refine ⟨by simp [State.hostRead, h], by simp [State.hostRead, h], fun a ha => ?_, fun a ha => ?_,
    by simp [State.hostRead, h], by simp [State.hostRead, h]⟩
  · rw [State.hostRead_cell h, if_pos ha]
  · rw [State.hostRead_cell h, if_neg (not_lt.2 ha)]

/-- The state of `fsm` with this code; none for the reserved one (R24). -/
def Fsm.ofCode (n : BitVec 2) : Option Fsm :=
  [Fsm.running, .endOfProgram, .faulted].find? (fun f => f.code == n)

/-- The cause with this code; none for the reserved ones (R93). -/
def FaultCause.ofCode (n : BitVec 3) : Option FaultCause :=
  [FaultCause.none, .readAccessViolation, .writeAccessViolation, .inputSourceFailure,
    .illegalInstruction, .missingJumpTarget].find? (fun c => c.code == n)

theorem Fsm.ofCode_code (f : Fsm) : Fsm.ofCode f.code = some f := by
  cases f <;> decide

theorem FaultCause.ofCode_code (c : FaultCause) : FaultCause.ofCode c.code = some c := by
  cases c <;> decide

theorem Fsm.code_injective {f g : Fsm} (h : f.code = g.code) : f = g := by
  have hfg := f.ofCode_code
  rw [h, g.ofCode_code] at hfg
  exact (Option.some.inj hfg).symm

theorem FaultCause.code_injective {c d : FaultCause} (h : c.code = d.code) : c = d := by
  have hcd := c.ofCode_code
  rw [h, d.ofCode_code] at hcd
  exact (Option.some.inj hcd).symm

/-- A value that stands for no state is not held. -/
theorem Fsm.code_ne_of_ofCode_eq_none {n : BitVec 2} (h : Fsm.ofCode n = none) (f : Fsm) :
    f.code ≠ n := by
  rintro rfl
  simp [f.ofCode_code] at h

/-- A value that stands for no cause is not held. -/
theorem FaultCause.code_ne_of_ofCode_eq_none {n : BitVec 3} (h : FaultCause.ofCode n = Option.none)
    (c : FaultCause) : c.code ≠ n := by
  rintro rfl
  simp [c.ofCode_code] at h

/-- Settles O58: a code is read back to what has it, so no code is shared, and nothing is read back from a
reserved value. -/
theorem statusCodes : Obligations.StatusCodes := by
  refine ⟨by decide, by decide, fun _ _ => Fsm.code_injective, fun _ _ => FaultCause.code_injective,
    Fsm.code_ne_of_ofCode_eq_none (by decide), fun c => ⟨?_, ?_⟩⟩
  · exact FaultCause.code_ne_of_ofCode_eq_none (by decide) c
  · exact FaultCause.code_ne_of_ofCode_eq_none (by decide) c

end Sys2Proof.Machine
end

section
/-! The streams of R43, the checked tape accesses of R34 and R35, and the independence of engines. -/

namespace Sys2Proof.Machine

/-! ### The streams -/

section

variable {i : Instr} {s t : State}

theorem Effect.emissions (h : Effect i s t) :
    t.emitted = s.emitted ∨ i = .output ∧ s.mp < s.cfg.tapeLen ∧
      t.emitted = s.emitted ++ [s.tape.read s.mp] ∧ t.resp = some (.executed s.pc) := by
  cases h with
  | emitted hi hb _ => exact .inr ⟨hi, hb, rfl, rfl⟩
  | _ => exact .inl rfl

/-- R43, R86: the bytes emitted stay, or a `.` in bounds executed and its cell came after them. -/
theorem StepEffect.emissions (h : StepEffect s t) :
    t.emitted = s.emitted ∨ s.fsm = .running ∧ s.image.fetch s.pc = some (encode .output) ∧
      s.mp < s.cfg.tapeLen ∧ t.emitted = s.emitted ++ [s.tape.read s.mp] ∧
      t.resp = some (.executed s.pc) := by
  cases h with
  | ran i _ hr hf he =>
    rcases he.emissions with hs | ⟨rfl, hemit⟩
    · exact .inl hs
    · exact .inr ⟨hr, hf, hemit⟩
  | _ => exact .inl rfl

theorem Effect.answers (h : Effect i s t) :
    t.answers = s.answers ∨ i = .input ∧ ∃ x, s.answers = x :: t.answers := by
  have consumed {x : InputAnswer} {rest : List InputAnswer} (ha : s.answers = x :: rest) :
      s.answers = x :: s.answers.tail := by rw [ha, List.tail_cons]
  cases h with
  | stored _ _ hi ha | inputFailed _ hi ha | inputLost _ _ hi ha => exact .inr ⟨hi, _, consumed ha⟩
  | _ => exact .inl rfl

/-- R43, R87: the answers stay, or a `,` consumed the first. -/
theorem StepEffect.answers (h : StepEffect s t) :
    t.answers = s.answers ∨ s.fsm = .running ∧ s.image.fetch s.pc = some (encode .input) ∧
      ∃ x, s.answers = x :: t.answers := by
  cases h with
  | ran i _ hr hf he =>
    rcases he.answers with hs | ⟨rfl, hx⟩
    · exact .inl hs
    · exact .inr ⟨hr, hf, hx⟩
  | _ => exact .inl rfl

end

/-- Settles O23: of the paths of a step, only that of a `.` the sink takes adds a byte, and only those of
a `,` that is answered take an answer. -/
theorem streamsInExecutionOrder : Obligations.StreamsInExecutionOrder := fun _ _ h =>
  ⟨(step_effect h).emissions, (step_effect h).answers⟩

/-! ### The tape accesses, in bounds and out of bounds -/

section

variable {s : State} {a : Nat}

theorem memRead_of_lt (h : a < s.cfg.tapeLen) : memRead a s = .value (s.tape.read a) :=
  ((memRead_spec a s).resolve_right fun hout => not_lt.2 hout.1 h).2

theorem memRead_of_le (h : s.cfg.tapeLen ≤ a) : memRead a s = .violation .readAccessViolation :=
  ((memRead_spec a s).resolve_left fun hin => not_lt.2 h hin.1).2

theorem memWrite_of_lt (v : Byte) (h : a < s.cfg.tapeLen) : memWrite a v s = .done (s.setCell a v) :=
  ((memWrite_spec a v s).resolve_right fun hout => not_lt.2 hout.1 h).2

theorem memWrite_of_le (v : Byte) (h : s.cfg.tapeLen ≤ a) :
    memWrite a v s = .violation .writeAccessViolation :=
  ((memWrite_spec a v s).resolve_left fun hin => not_lt.2 h hin.1).2

theorem modifyOperand_of_le (h : s.cfg.tapeLen ≤ s.mp) :
    modifyOperand s = .violation .writeAccessViolation :=
  ((modifyOperand_spec s).resolve_left fun hin => not_lt.2 h hin.1).2

end

/-- Settles O30: each access by its bounds, and the memory a write leaves by `Memory.read_write`. -/
theorem tapeAccessPrimitives : Obligations.TapeAccessPrimitives := by
  refine fun s a => ⟨s.inBounds_iff a, memRead_of_lt, memRead_of_le, fun v => memWrite_of_le v,
    fun v ha hw => ⟨s.tape.write a v, memWrite_of_lt v ha, ?_, fun b hb => ?_⟩, modifyOperand_of_le⟩
  · rw [Memory.read_write _ _ _ _ hw, if_pos rfl]
  · rw [Memory.read_write _ _ _ _ hw, if_neg hb]

/-! ### Several engines -/

/-- One engine after an act of the host: the next state, or the state as it was where the act is
refused. -/
def State.afterAct (e : HostEvent) (s : State) : State :=
  match hostStep e s with
  | .next s' => s'
  | .fault _ => s
  | .refused _ => s

/-- An act on engine `k` replaces that engine's state by a function of it alone. -/
theorem enginesStep_eq_modify (k : Nat) (e : HostEvent) (es : List State) :
    enginesStep k e es = es.modify k (State.afterAct e) := by
  rw [List.modify_eq_set_getElem?]
  unfold enginesStep
  cases hk : es[k]? with
  | none => rfl
  | some s =>
    obtain ⟨hlt, hget⟩ := List.getElem?_eq_some_iff.1 hk
    have hkeep : es.set k s = es := by rw [← hget, List.set_getElem_self]
    cases ho : hostStep e s <;> simp [State.afterAct, ho, hkeep]

/-- Settles O59: `List.modify` at `k` keeps the length and every other entry, and its entry at `k` is a
function of the one before. -/
theorem enginesIndependent : Obligations.EnginesIndependent := by
  intro k e es fs
  simp only [enginesStep_eq_modify]
  refine ⟨List.length_modify .., fun j hj => ?_, fun h => ?_⟩
  · exact List.getElem?_modify_ne _ _ hj.symm
  · rw [List.getElem?_modify_eq, List.getElem?_modify_eq, h]

end Sys2Proof.Machine
end

section
/-! The opcode map of R50 as a set of bytes, and the byte sequences that are programs (R62 to R64). -/

namespace Sys2Proof

/-! ### One byte -/

/-- The instruction alphabet of R50, written out. -/
theorem isOpcode_iff_mem (b : Byte) : isOpcode b = true ↔
    b ∈ [0x3E#8, 0x3C#8, 0x2B#8, 0x2D#8, 0x2E#8, 0x2C#8, 0x5B#8, 0x5D#8] := by
  simp only [isOpcode_iff, decode_eq_instr_iff]
  constructor
  · rintro ⟨i, rfl⟩
    cases i <;> decide
  · simp only [List.mem_cons, List.not_mem_nil, or_false]
    rintro (rfl | rfl | rfl | rfl | rfl | rfl | rfl | rfl)
    exacts [⟨.ptrInc, rfl⟩, ⟨.ptrDec, rfl⟩, ⟨.cellInc, rfl⟩, ⟨.cellDec, rfl⟩, ⟨.output, rfl⟩,
      ⟨.input, rfl⟩, ⟨.loopStart, rfl⟩, ⟨.loopEnd, rfl⟩]

@[simp] theorem isOpcode_encode (i : Instr) : isOpcode (encode i) = true :=
  (isOpcode_iff _).2 ⟨i, decode_encode_of i⟩

theorem decode_eq_illegal_iff (b : Byte) : decode b = .illegal b ↔ isOpcode b = false := by
  unfold isOpcode
  cases hd : decode b with
  | instr i => simp
  | illegal c => simp [decode_eq_illegal hd]

/-- The opcode of an instruction, read as a word of the opcode table, stands for that instruction. -/
theorem decodeTableWord_encode (i : Instr) : decodeTableWord 8 (encode i).toNat = some i := by
  have hbyte : BitVec.ofNat 8 ((encode i).toNat % rangeOf 8) = encode i := by
    rw [Nat.mod_eq_of_lt (encode i).isLt, BitVec.ofNat_toNat, BitVec.setWidth_eq]
  rw [decodeTableWord, hbyte, decode_encode_of]

/-! ### Byte sequences -/

theorem decodeAll_cons_encode (i : Instr) (bs : List Byte) :
    decodeAll (encode i :: bs) = (decodeAll bs).map (i :: ·) := by
  rw [decodeAll, decode_encode_of]

/-- R63: an instruction sequence is read back from its bytes. -/
theorem decodeAll_encodeAll (is : List Instr) : decodeAll (encodeAll is) = some is := by
  induction is with
  | nil => rfl
  | cons i is ih =>
    rw [encodeAll] at ih ⊢
    rw [List.map_cons, decodeAll_cons_encode, ih, Option.map_some]

/-- R63: only its own bytes are read as an instruction sequence. -/
theorem encodeAll_of_decodeAll {bs : List Byte} :
    ∀ {is : List Instr}, decodeAll bs = some is → encodeAll is = bs := by
  induction bs with
  | nil => rintro is ⟨⟩; rfl
  | cons b bs ih =>
    intro is h
    cases hd : decode b with
    | illegal c => simp [decodeAll, hd] at h
    | instr i =>
      rw [decodeAll, hd] at h
      obtain ⟨is', his', rfl⟩ := Option.map_eq_some_iff.1 h
      rw [encodeAll, List.map_cons, encode_of_decode hd, ← encodeAll, ih his']

/-- A sequence of opcodes is the bytes of some instruction sequence. -/
theorem exists_encodeAll_eq {bs : List Byte} (h : ∀ b ∈ bs, isOpcode b = true) :
    ∃ is, encodeAll is = bs := by
  have hmem : bs ∈ Set.range (List.map encode) := by
    rw [Set.range_list_map]
    intro b hb
    obtain ⟨i, hi⟩ := (isOpcode_iff b).1 (h b hb)
    exact ⟨i, encode_of_decode hi⟩
  exact hmem

theorem isOpcode_of_mem_loadFilter {src : List Byte} {b : Byte} (h : b ∈ loadFilter src) :
    isOpcode b = true :=
  (List.mem_filter.1 h).2

/-- Settles O4: decoding undoes encoding by `decodeAll_encodeAll` and is undone by it by
`encodeAll_of_decodeAll`, and the filter keeps the opcodes and nothing else. -/
theorem programsDecodeAsEncoded : Obligations.ProgramsDecodeAsEncoded := by
  refine ⟨decodeAll_encodeAll, fun _ _ => encodeAll_of_decodeAll, fun is => ?_, fun src => ?_⟩
  · exact List.filter_eq_self.2 (List.forall_mem_map.2 fun i _ => isOpcode_encode i)
  · obtain ⟨is, his⟩ := exists_encodeAll_eq fun _ => isOpcode_of_mem_loadFilter (src := src)
    exact ⟨is, his ▸ decodeAll_encodeAll is⟩

/-- Settles O2: each word is the opcode of its instruction. -/
theorem opcodeWords : Obligations.OpcodeWords :=
  ⟨decodeTableWord_encode .ptrInc, decodeTableWord_encode .ptrDec, decodeTableWord_encode .cellInc,
    decodeTableWord_encode .cellDec, decodeTableWord_encode .output, decodeTableWord_encode .input,
    decodeTableWord_encode .loopStart, decodeTableWord_encode .loopEnd, by decide⟩

/-- Settles O3: `decode_eq_instr_iff` at each of the eight opcodes, the bytes outside them by
`isOpcode_iff_mem`, and the byte at `pc` by `fetchAt_of_fetch`. -/
theorem decodeIsTotalAndExact : Obligations.DecodeIsTotalAndExact := by
  refine ⟨fun b => ⟨decode_eq_instr_iff b .ptrInc, decode_eq_instr_iff b .ptrDec,
    decode_eq_instr_iff b .cellInc, decode_eq_instr_iff b .cellDec, decode_eq_instr_iff b .output,
    decode_eq_instr_iff b .input, decode_eq_instr_iff b .loopStart, decode_eq_instr_iff b .loopEnd, ?_⟩,
    fun s b hb => ?_⟩
  · rw [decode_eq_illegal_iff, ← isOpcode_iff_mem, Bool.not_eq_true]
  · have hfetched : s.fetched = Machine.fetchedByte b := Machine.fetchAt_of_fetch hb
    exact ⟨fun i hi => by rw [hfetched, Machine.fetchedByte, hi],
      fun hi => by rw [hfetched, Machine.fetchedByte, hi]⟩

end Sys2Proof
end

section
/-! What the image check of R54 and R55 says, part by part. -/

namespace Sys2Proof

theorem Image.lengthOk_iff (c : Config) (img : Image) :
    img.lengthOk c = true ↔ img.prog.length ≤ c.progMax := decide_eq_true_iff

theorem Image.bytesOk_iff (img : Image) :
    img.bytesOk = true ↔ ∀ b ∈ img.prog, isOpcode b = true := List.all_eq_true

/-- R55: the table is a partial function from the program's indices. -/
theorem Image.domainOk_iff (img : Image) :
    img.domainOk = true ↔ ∀ i, img.count ≤ i → img.jumpTarget i = none := by
  simp only [Image.domainOk, List.all_eq_true, beq_iff_eq, Image.jumpTarget]
  constructor
  · intro h i hi
    cases hv : img.table[i]? with
    | none => rfl
    | some e =>
      refine h e (List.mem_of_getElem? (i := i - img.count) ?_)
      rw [List.getElem?_drop, Nat.add_sub_cancel' hi, hv]
  · intro h e he
    obtain ⟨k, hk⟩ := List.mem_iff_getElem?.1 he
    rw [List.getElem?_drop] at hk
    simpa [hk] using h (img.count + k) (Nat.le_add_right _ _)

/-- R55 items 1 and 4. -/
theorem Image.startOk_iff (img : Image) (i : Nat) :
    img.startOk i = true ↔ ∃ j, img.jumpTarget i = some j ∧ img.fetch j = some (encode .loopEnd) ∧
      img.jumpTarget j = some i ∧ i < j ∧ balancedFrom 0 (img.between i j) = true := by
  unfold Image.startOk
  cases img.jumpTarget i with
  | none => simp
  | some j => simp [and_assoc]

/-- R55 item 2. -/
theorem Image.endOk_iff (img : Image) (j : Nat) :
    img.endOk j = true ↔ ∃ i, img.jumpTarget j = some i ∧ img.fetch i = some (encode .loopStart) ∧
      img.jumpTarget i = some j := by
  unfold Image.endOk
  cases img.jumpTarget j with
  | none => simp
  | some i => simp

/-- R55 items 1 to 4 at one index, item by item. -/
theorem Image.entryOk_iff (img : Image) (i : Nat) :
    img.entryOk i = true ↔
      (img.fetch i = some (encode .loopStart) → img.startOk i = true) ∧
      (img.fetch i = some (encode .loopEnd) → img.endOk i = true) ∧
      (img.fetch i ≠ some (encode .loopStart) → img.fetch i ≠ some (encode .loopEnd) →
        img.jumpTarget i = none) := by
  have hne : some (encode .loopStart) ≠ some (encode .loopEnd) := by decide
  unfold Image.entryOk
  split
  next hs => simp [hs, hne]
  next hs =>
    split
    next he => simp [he, hne.symm]
    next he => simp [hs, he]

theorem Image.tableOk_iff (img : Image) :
    img.tableOk = true ↔ ∀ i < img.count, img.entryOk i = true := by
  simp [Image.tableOk]

/-- Item 3 past the program's end is the table's domain, so R55 is its items at every index. -/
theorem Image.domainOk_and_tableOk_iff (img : Image) :
    img.domainOk = true ∧ img.tableOk = true ↔
      (∀ i, img.fetch i = some (encode .loopStart) → img.startOk i = true) ∧
      (∀ j, img.fetch j = some (encode .loopEnd) → img.endOk j = true) ∧
      (∀ i, img.fetch i ≠ some (encode .loopStart) → img.fetch i ≠ some (encode .loopEnd) →
        img.jumpTarget i = none) := by
  simp only [Image.domainOk_iff, Image.tableOk_iff, Image.entryOk_iff]
  constructor
  · rintro ⟨hdom, htab⟩
    refine ⟨fun i hf => ?_, fun j hf => ?_, fun i hs he => ?_⟩
    · obtain ⟨hstart, -, -⟩ := htab i (Machine.Image.lt_of_fetch hf)
      exact hstart hf
    · obtain ⟨-, hend, -⟩ := htab j (Machine.Image.lt_of_fetch hf)
      exact hend hf
    · rcases lt_or_ge i img.count with hi | hi
      · obtain ⟨-, -, hother⟩ := htab i hi
        exact hother hs he
      · exact hdom i hi
  · rintro ⟨hstart, hend, hother⟩
    refine ⟨fun i hi => ?_, fun i _ => ⟨hstart i, hend i, hother i⟩⟩
    have hnone : img.fetch i = none := List.getElem?_eq_none hi
    exact hother i (by simp [hnone]) (by simp [hnone])

/-- R55 item 4 by counts, for a pair that lies in the program. -/
theorem Image.balanced_between_iff {img : Image} {i j : Nat}
    (hj : img.fetch j = some (encode .loopEnd)) :
    balancedFrom 0 (img.between i j) = true ↔
      (∀ k, k ≤ j - i - 1 → ((img.prog.drop (i + 1)).take k).count (encode .loopEnd) ≤
        ((img.prog.drop (i + 1)).take k).count (encode .loopStart)) ∧
      ((img.prog.drop (i + 1)).take (j - i - 1)).count (encode .loopEnd) =
        ((img.prog.drop (i + 1)).take (j - i - 1)).count (encode .loopStart) := by
  have hlt : j < img.prog.length := Machine.Image.lt_of_fetch hj
  have hlen : (img.between i j).length = j - i - 1 := by
    simp only [Image.between, List.length_take, List.length_drop]
    omega
  rw [balancedFrom_iff_counts, hlen]
  simp only [Nat.zero_add]
  refine and_congr (forall₂_congr fun k hk => ?_) Iff.rfl
  rw [Image.between, List.take_take, Nat.min_eq_left hk]

/-- Settles O8, part by part: the length, the bytes, and the items of R55 at every index, item 4 by
counts. -/
theorem wellFormedImageMeaning : Obligations.WellFormedImageMeaning := by
  intro c img
  rw [Image.wf_iff, Image.domainOk_and_tableOk_iff, Image.lengthOk_iff, Image.bytesOk_iff]
  refine and_congr Iff.rfl (and_congr ?_ (and_congr ?_ (and_congr ?_ Iff.rfl)))
  · simp only [isOpcode_iff_mem]
  · refine forall₂_congr fun i _ => (Image.startOk_iff img i).trans (exists_congr fun j => ?_)
    exact and_congr_right' (and_congr_right fun hj =>
      and_congr_right' (and_congr_right' (Image.balanced_between_iff hj)))
  · exact forall₂_congr fun j _ => Image.endOk_iff img j

/-- R55: an entry of a well-formed image leads back, and both indices lie in the program. -/
theorem Image.jumpTarget_symm {c : Config} {img : Image} {i t : Nat} (hw : img.wf c = true)
    (ht : img.jumpTarget i = some t) :
    img.jumpTarget t = some i ∧ i < img.count ∧ t < img.count := by
  obtain ⟨-, -, hdom, htab⟩ := (Image.wf_iff c img).1 hw
  obtain ⟨-, -, hother⟩ := (Image.domainOk_and_tableOk_iff img).1 ⟨hdom, htab⟩
  by_cases hs : img.fetch i = some (encode .loopStart)
  · obtain ⟨j, hj, hend, hback, -⟩ := Image.loopStart_target hw hs
    obtain rfl := Option.some.inj (ht.symm.trans hj)
    exact ⟨hback, Machine.Image.lt_of_fetch hs, Machine.Image.lt_of_fetch hend⟩
  · by_cases he : img.fetch i = some (encode .loopEnd)
    · obtain ⟨j, hj, hstart, hback⟩ := Image.loopEnd_target hw he
      obtain rfl := Option.some.inj (ht.symm.trans hj)
      exact ⟨hback, Machine.Image.lt_of_fetch he, Machine.Image.lt_of_fetch hstart⟩
    · rw [hother i hs he] at ht
      cases ht

/-- Settles O9: `Image.jumpTarget_symm`, and R7 for the counter one past the entry. -/
theorem jumpTableSymmetric : Obligations.JumpTableSymmetric := by
  intro c img i t hc hw ht
  obtain ⟨hback, hi, hlt⟩ := Image.jumpTarget_symm hw ht
  obtain ⟨hlen, -⟩ := (Image.wf_iff c img).1 hw
  have hmax : t + 1 ≤ c.progMax := Nat.le_trans hlt ((Image.lengthOk_iff c img).1 hlen)
  exact ⟨hback, hi, hlt, Nat.mod_eq_of_lt (hmax.trans_lt (Config.progMax_lt_of_wf hc))⟩

end Sys2Proof
end

section
/-! Which result the loader gives (R56 to R61): the scan goes through exactly when no loop end comes too
many, and its stack is then as deep as loops are left open. -/

namespace Sys2Proof

/-! ### Counting brackets -/

/-- With `d` loops open, no initial segment of the bytes holds a loop end too many. -/
def NeverOverclosed (d : Nat) (bs : List Byte) : Prop :=
  ∀ k, k ≤ bs.length →
    (bs.take k).count (encode .loopEnd) ≤ d + (bs.take k).count (encode .loopStart)

theorem neverOverclosed_nil (d : Nat) : NeverOverclosed d [] := fun k _ => by simp

/-- Beside the empty segment, the initial segments of a sequence begin with its first byte. -/
theorem neverOverclosed_cons (d : Nat) (b : Byte) (bs : List Byte) :
    NeverOverclosed d (b :: bs) ↔ ∀ k, k ≤ bs.length →
      (b :: bs.take k).count (encode .loopEnd) ≤ d + (b :: bs.take k).count (encode .loopStart) := by
  refine ⟨fun h k hk => h (k + 1) (Nat.succ_le_succ hk), fun h k hk => ?_⟩
  cases k with
  | zero => simp
  | succ k => exact h k (Nat.le_of_succ_le_succ hk)

theorem neverOverclosed_start (d : Nat) (bs : List Byte) :
    NeverOverclosed d (encode .loopStart :: bs) ↔ NeverOverclosed (d + 1) bs := by
  have hne : encode .loopStart ≠ encode .loopEnd := by decide
  rw [neverOverclosed_cons, NeverOverclosed]
  simp only [List.count_cons_self, List.count_cons_of_ne hne, Nat.add_right_comm d 1, Nat.add_assoc]

theorem neverOverclosed_end_succ (d : Nat) (bs : List Byte) :
    NeverOverclosed (d + 1) (encode .loopEnd :: bs) ↔ NeverOverclosed d bs := by
  have hne : encode .loopEnd ≠ encode .loopStart := by decide
  rw [neverOverclosed_cons, NeverOverclosed]
  simp only [List.count_cons_self, List.count_cons_of_ne hne, Nat.add_right_comm d 1,
    Nat.add_le_add_iff_right]

theorem not_neverOverclosed_end_zero (bs : List Byte) :
    ¬ NeverOverclosed 0 (encode .loopEnd :: bs) := fun h => by
  have h1 := h 1 (by simp)
  have hne : encode .loopEnd ≠ encode .loopStart := by decide
  simp [List.count_cons_of_ne hne] at h1

theorem neverOverclosed_other {b : Byte} (hs : b ≠ encode .loopStart) (he : b ≠ encode .loopEnd)
    (d : Nat) (bs : List Byte) : NeverOverclosed d (b :: bs) ↔ NeverOverclosed d bs := by
  rw [neverOverclosed_cons, NeverOverclosed]
  simp only [List.count_cons_of_ne hs, List.count_cons_of_ne he]

/-! ### The scan -/

/-- R58: the scan stops exactly at a loop end that comes too many. -/
theorem resolve_eq_none_iff (bs : List Byte) : ∀ (i : Nat) (sc : Scan),
    resolve i sc bs = none ↔ ¬ NeverOverclosed sc.stack.length bs := by
  induction bs with
  | nil => simp [resolve_nil, neverOverclosed_nil]
  | cons b bs ih =>
    intro i sc
    by_cases hs : b = encode .loopStart
    · subst hs
      rw [resolve_start, ih, neverOverclosed_start, List.length_cons]
    · by_cases he : b = encode .loopEnd
      · subst he
        obtain ⟨stack, table⟩ := sc
        cases stack with
        | nil => simp [resolve_end_nil, not_neverOverclosed_end_zero]
        | cons j stack => rw [resolve_end_cons, ih, List.length_cons, neverOverclosed_end_succ]
      · rw [resolve_other hs he, ih, neverOverclosed_other hs he]

/-- Each loop start pushes and each loop end pops. -/
theorem resolve_stack_length {sc' : Scan} (bs : List Byte) :
    ∀ (i : Nat) (sc : Scan), resolve i sc bs = some sc' →
      sc'.stack.length + bs.count (encode .loopEnd) =
        sc.stack.length + bs.count (encode .loopStart) := by
  have hne : encode .loopEnd ≠ encode .loopStart := by decide
  induction bs with
  | nil => rintro i sc ⟨⟩; rfl
  | cons b bs ih =>
    intro i sc h
    by_cases hs : b = encode .loopStart
    · subst hs
      have := ih _ _ (resolve_start i sc bs ▸ h)
      rw [List.count_cons_of_ne hne.symm, List.count_cons_self]
      simp only [List.length_cons] at this
      omega
    · by_cases he : b = encode .loopEnd
      · subst he
        obtain ⟨stack, table⟩ := sc
        cases stack with
        | nil => cases (resolve_end_nil i table bs).symm.trans h
        | cons j stack =>
          have := ih _ _ (resolve_end_cons i j stack table bs ▸ h)
          rw [List.count_cons_of_ne hne, List.count_cons_self, List.length_cons]
          simp only at this ⊢
          omega
      · rw [List.count_cons_of_ne hs, List.count_cons_of_ne he]
        exact ih _ _ (resolve_other hs he i sc bs ▸ h)

/-- Bytes without a bracket leave the scan as it is. -/
theorem resolve_of_no_brackets {bs : List Byte} (i : Nat) (sc : Scan)
    (hs : encode .loopStart ∉ bs) (he : encode .loopEnd ∉ bs) : resolve i sc bs = some sc := by
  induction bs generalizing i with
  | nil => rfl
  | cons b bs ih =>
    obtain ⟨hs, hss⟩ := List.ne_and_not_mem_of_not_mem_cons hs
    obtain ⟨he, hes⟩ := List.ne_and_not_mem_of_not_mem_cons he
    rw [resolve_other hs.symm he.symm, ih (i + 1) hss hes]

/-! ### The loader's result -/

/-- R58, R59: the three ends of bracket resolution. -/
theorem loadResolve_cases (prog : List Byte) :
    resolve 0 (Scan.start prog.length) prog = none ∧
        loadResolve prog = .error .loopEndWithoutBeginning ∨
      (∃ j stack table, resolve 0 (Scan.start prog.length) prog = some ⟨j :: stack, table⟩ ∧
        loadResolve prog = .error .loopStartWithoutEnd) ∨
      ∃ table, resolve 0 (Scan.start prog.length) prog = some ⟨[], table⟩ ∧
        loadResolve prog = .image ⟨prog, table⟩ := by
  unfold loadResolve
  match resolve 0 (Scan.start prog.length) prog with
  | none => exact .inl ⟨rfl, rfl⟩
  | some ⟨j :: stack, table⟩ => exact .inr (.inl ⟨j, stack, table, rfl, rfl⟩)
  | some ⟨[], table⟩ => exact .inr (.inr ⟨table, rfl, rfl⟩)

/-- The three ends of bracket resolution, by the program's brackets alone. -/
theorem loadResolve_by_counts (prog : List Byte) :
    ¬ NeverOverclosed 0 prog ∧ loadResolve prog = .error .loopEndWithoutBeginning ∨
      NeverOverclosed 0 prog ∧ prog.count (encode .loopEnd) < prog.count (encode .loopStart) ∧
        loadResolve prog = .error .loopStartWithoutEnd ∨
      NeverOverclosed 0 prog ∧ prog.count (encode .loopEnd) = prog.count (encode .loopStart) ∧
        ∃ img, loadResolve prog = .image img := by
  have hstop := resolve_eq_none_iff prog 0 (Scan.start prog.length)
  have hdepth (sc : Scan) := resolve_stack_length (sc' := sc) prog 0 (Scan.start prog.length)
  simp only [Scan.start, List.length_nil, Nat.zero_add] at hstop hdepth
  rcases loadResolve_cases prog with ⟨hsc, hr⟩ | ⟨j, stack, table, hsc, hr⟩ | ⟨table, hsc, hr⟩
  · exact .inl ⟨hstop.1 hsc, hr⟩
  · have hd := hdepth _ hsc
    refine .inr (.inl ⟨?_, by simp only [List.length_cons] at hd; omega, hr⟩)
    by_contra hno
    cases hsc.symm.trans (hstop.2 hno)
  · have hd := hdepth _ hsc
    refine .inr (.inr ⟨?_, by simpa using hd, _, hr⟩)
    by_contra hno
    cases hsc.symm.trans (hstop.2 hno)

theorem loadResolve_eq_image {prog : List Byte} {img : Image} (h : loadResolve prog = .image img) :
    img.prog = prog ∧ resolve 0 (Scan.start prog.length) prog = some ⟨[], img.table⟩ := by
  rcases loadResolve_cases prog with ⟨-, hr⟩ | ⟨_, _, _, -, hr⟩ | ⟨table, hsc, hr⟩
  · cases hr.symm.trans h
  · cases hr.symm.trans h
  · cases hr.symm.trans h
    exact ⟨rfl, hsc⟩

/-- R60: the length is checked before the brackets. -/
theorem build_of_lt {c : Config} {src : List Byte} (h : c.progMax < (loadFilter src).length) :
    build c src = .error .programTooLong := if_pos h

theorem build_of_le {c : Config} {src : List Byte} (h : (loadFilter src).length ≤ c.progMax) :
    build c src = loadResolve (loadFilter src) := if_neg (Nat.not_lt.2 h)

/-- R56: an image built holds the filtered source, which is not too long, and the table of its scan. -/
theorem build_eq_image {c : Config} {src : List Byte} {img : Image} (h : build c src = .image img) :
    img.prog = loadFilter src ∧ img.prog.length ≤ c.progMax ∧
      resolve 0 (Scan.start img.prog.length) img.prog = some ⟨[], img.table⟩ := by
  rcases lt_or_ge c.progMax (loadFilter src).length with hlt | hle
  · cases (build_of_lt hlt).symm.trans h
  · obtain ⟨hprog, hscan⟩ := loadResolve_eq_image ((build_of_le hle).symm.trans h)
    rw [hprog]
    exact ⟨rfl, hle, hscan⟩

/-- Settles O6: the length is checked first; then the three ends of bracket resolution by counts, which
exclude each other. -/
theorem loaderResultCases : Obligations.LoaderResultCases := by
  intro c src p opened closed
  have hopened : opened p.length = p.count (encode .loopStart) := by
    simp only [opened, List.take_length]; rfl
  have hclosed : closed p.length = p.count (encode .loopEnd) := by
    simp only [closed, List.take_length]; rfl
  have hnever : (∀ k, k ≤ p.length → closed k ≤ opened k) ↔ NeverOverclosed 0 p := by
    simp only [NeverOverclosed, Nat.zero_add]; rfl
  have hover : (∃ k, k ≤ p.length ∧ opened k < closed k) ↔ ¬ NeverOverclosed 0 p := by
    simp only [← hnever, not_forall, not_le, exists_prop]
  rw [hopened, hclosed, hnever, hover]
  rcases lt_or_ge c.progMax p.length with hlt | hle
  · simp [build_of_lt hlt, hlt, Nat.not_le.2 hlt]
  · rcases loadResolve_by_counts p with ⟨hn, hr⟩ | ⟨hn, hc, hr⟩ | ⟨hn, hc, img, hr⟩
    · simp [(build_of_le hle).trans hr, hn, hle]
    · simp [(build_of_le hle).trans hr, hn, hle, hc, hc.ne]
    · simp [(build_of_le hle).trans hr, hn, hle, hc]

end Sys2Proof
end

section
/-! The scan builds a table that satisfies R55: what holds of its stack and its table after each byte, so
every image the loader builds is well-formed (R56). -/

namespace Sys2Proof

/-! ### Pairs -/

/-- `p` holds a `[` and `q` the `]` that closes it, as items 1, 2 and 4 of R55 ask. -/
structure Image.Pair (img : Image) (p q : Nat) : Prop where
  start : img.fetch p = some (encode .loopStart)
  close : img.fetch q = some (encode .loopEnd)
  entry : img.jumpTarget p = some q
  back : img.jumpTarget q = some p
  lt : p < q
  balanced : balancedFrom 0 (img.between p q) = true

/-- `p` holds no bracket and has no entry, as item 3 of R55 asks. -/
structure Image.Plain (img : Image) (p : Nat) : Prop where
  noStart : img.fetch p ≠ some (encode .loopStart)
  noEnd : img.fetch p ≠ some (encode .loopEnd)
  noEntry : img.jumpTarget p = none

theorem Image.Pair.entryOk_start {img : Image} {p q : Nat} (h : img.Pair p q) :
    img.entryOk p = true := by
  rw [Image.entryOk, if_pos h.start]
  exact (img.startOk_iff p).2 ⟨q, h.entry, h.close, h.back, h.lt, h.balanced⟩

theorem Image.Pair.entryOk_close {img : Image} {p q : Nat} (h : img.Pair p q) :
    img.entryOk q = true := by
  have hne : img.fetch q ≠ some (encode .loopStart) := by rw [h.close]; decide
  rw [Image.entryOk, if_neg hne, if_pos h.close]
  exact (img.endOk_iff q).2 ⟨p, h.back, h.start, h.entry⟩

theorem Image.Plain.entryOk {img : Image} {p : Nat} (h : img.Plain p) : img.entryOk p = true := by
  rw [Image.entryOk, if_neg h.noStart, if_neg h.noEnd, h.noEntry]
  rfl

/-- What is asked of a pair depends on the table only at its two indices. -/
theorem Image.Pair.congr {prog : List Byte} {t t' : List (Option Nat)} {p q : Nat}
    (h : Image.Pair ⟨prog, t⟩ p q)
    (hp : Image.jumpTarget ⟨prog, t'⟩ p = Image.jumpTarget ⟨prog, t⟩ p)
    (hq : Image.jumpTarget ⟨prog, t'⟩ q = Image.jumpTarget ⟨prog, t⟩ q) :
    Image.Pair ⟨prog, t'⟩ p q :=
  ⟨h.start, h.close, hp.trans h.entry, hq.trans h.back, h.lt, h.balanced⟩

/-! ### Pending loop starts -/

/-- `j` holds a `[` without an entry, and from it to `i` another `k` loops are left open. -/
structure Image.Pending (img : Image) (i k j : Nat) : Prop where
  lt : j < i
  start : img.fetch j = some (encode .loopStart)
  noEntry : img.jumpTarget j = none
  depth : ∀ ys, balancedFrom 0 (img.between j i ++ ys) = balancedFrom k ys

theorem Image.between_succ {img : Image} {i j : Nat} {b : Byte} (hj : j < i)
    (hi : img.fetch i = some b) : img.between j (i + 1) = img.between j i ++ [b] := by
  have hget : (img.prog.drop (j + 1))[i - j - 1]? = some b := by
    rw [List.getElem?_drop, show j + 1 + (i - j - 1) = i by omega]
    exact hi
  rw [Image.between, Image.between, show i + 1 - j - 1 = i - j - 1 + 1 by omega, List.take_add_one,
    hget, Option.toList_some]

/-- A loop just opened is pending with no loop opened after it. -/
theorem Image.Pending.opened {img : Image} {i : Nat} (hi : img.fetch i = some (encode .loopStart))
    (hn : img.jumpTarget i = none) : img.Pending (i + 1) 0 i :=
  ⟨Nat.lt_succ_self i, hi, hn, fun ys => by simp [Image.between]⟩

/-- A pending loop stays pending past a byte that takes the depth from `k` to `k'`. -/
theorem Image.Pending.next {img : Image} {i j k k' : Nat} {b : Byte} (h : img.Pending i k j)
    (hi : img.fetch i = some b) (hb : ∀ ys, balancedFrom k (b :: ys) = balancedFrom k' ys) :
    img.Pending (i + 1) k' j := by
  refine ⟨h.lt.trans (Nat.lt_succ_self i), h.start, h.noEntry, fun ys => ?_⟩
  rw [Image.between_succ h.lt hi, List.append_assoc, List.singleton_append, h.depth, hb]

theorem Image.Pending.congr {prog : List Byte} {t t' : List (Option Nat)} {i k j : Nat}
    (h : Image.Pending ⟨prog, t⟩ i k j)
    (hj : Image.jumpTarget ⟨prog, t'⟩ j = Image.jumpTarget ⟨prog, t⟩ j) :
    Image.Pending ⟨prog, t'⟩ i k j :=
  ⟨h.lt, h.start, hj.trans h.noEntry, h.depth⟩

/-- What lies after the innermost pending loop is balanced. -/
theorem Image.Pending.balanced {img : Image} {i j : Nat} (h : img.Pending i 0 j) :
    balancedFrom 0 (img.between j i) = true := by
  have hnil := h.depth []
  rw [List.append_nil] at hnil
  exact hnil

/-! ### The invariant of the scan -/

/-- The scan before index `i` of `prog`: the stack holds the pending loop starts, innermost first, every
other index seen satisfies R55, and no index to come has an entry. -/
structure Scan.Inv (prog : List Byte) (i : Nat) (sc : Scan) : Prop where
  length : sc.table.length = prog.length
  nodup : sc.stack.Nodup
  pending : ∀ k j, sc.stack[k]? = some j → Image.Pending ⟨prog, sc.table⟩ i k j
  seen : ∀ p < i, p ∈ sc.stack ∨ (∃ q, Image.Pair ⟨prog, sc.table⟩ p q) ∨
    (∃ q, Image.Pair ⟨prog, sc.table⟩ q p) ∨ Image.Plain ⟨prog, sc.table⟩ p
  unseen : ∀ p, i ≤ p → Image.jumpTarget ⟨prog, sc.table⟩ p = none

theorem Scan.inv_start (prog : List Byte) : (Scan.start prog.length).Inv prog 0 where
  length := List.length_replicate
  nodup := List.nodup_nil
  pending := fun k j h => by simp [Scan.start] at h
  seen := fun p hp => absurd hp (Nat.not_lt_zero p)
  unseen := fun p _ => by
    by_cases hp : p < prog.length <;> simp [Image.jumpTarget, Scan.start, hp]

section

variable {prog : List Byte} {i : Nat}

theorem Scan.Inv.lt_of_mem {sc : Scan} (h : sc.Inv prog i) {j : Nat} (hj : j ∈ sc.stack) : j < i := by
  obtain ⟨k, hk⟩ := List.mem_iff_getElem?.1 hj
  exact (h.pending k j hk).lt

theorem Scan.Inv.opened {sc : Scan} (h : sc.Inv prog i) (hi : prog[i]? = some (encode .loopStart)) :
    Scan.Inv prog (i + 1) { sc with stack := i :: sc.stack } where
  length := h.length
  nodup := List.nodup_cons.2 ⟨fun hmem => (h.lt_of_mem hmem).false, h.nodup⟩
  pending := by
    intro k j hk
    cases k with
    | zero =>
      obtain rfl : i = j := by simpa using hk
      exact .opened hi (h.unseen i le_rfl)
    | succ k => exact (h.pending k j hk).next hi (balancedFrom_start k)
  seen := by
    intro p hp
    rcases Nat.lt_succ_iff_lt_or_eq.1 hp with hlt | rfl
    · exact (h.seen p hlt).imp_left (List.mem_cons_of_mem i)
    · exact .inl List.mem_cons_self
  unseen := fun p hp => h.unseen p (Nat.le_of_succ_le hp)

theorem Scan.Inv.other {sc : Scan} (h : sc.Inv prog i) {b : Byte} (hi : prog[i]? = some b)
    (hs : b ≠ encode .loopStart) (he : b ≠ encode .loopEnd) : sc.Inv prog (i + 1) where
  length := h.length
  nodup := h.nodup
  pending := fun k j hk => (h.pending k j hk).next hi (balancedFrom_other hs he k)
  seen := by
    intro p hp
    rcases Nat.lt_succ_iff_lt_or_eq.1 hp with hlt | rfl
    · exact h.seen p hlt
    · have hf : Image.fetch ⟨prog, sc.table⟩ p = some b := hi
      exact .inr (.inr (.inr ⟨by simpa [hf] using hs, by simpa [hf] using he, h.unseen p le_rfl⟩))
  unseen := fun p hp => h.unseen p (Nat.le_of_succ_le hp)

/-- The table with the entries of the pair `j`, `i` (R58). -/
def pairEntries (t : List (Option Nat)) (j i : Nat) : List (Option Nat) :=
  (t.set j (some i)).set i (some j)

theorem jumpTarget_pairEntries_of_ne (t : List (Option Nat)) {j p : Nat} (hi : p ≠ i) (hj : p ≠ j) :
    Image.jumpTarget ⟨prog, pairEntries t j i⟩ p = Image.jumpTarget ⟨prog, t⟩ p := by
  simp only [Image.jumpTarget, pairEntries, List.getElem?_set_ne hi.symm, List.getElem?_set_ne hj.symm]

/-- R58: a loop end and the innermost pending loop become a pair. -/
theorem Image.Pending.pair {t : List (Option Nat)} {j : Nat} (hj : Image.Pending ⟨prog, t⟩ i 0 j)
    (hi : prog[i]? = some (encode .loopEnd)) (hlen : i < t.length) :
    Image.Pair ⟨prog, pairEntries t j i⟩ j i where
  start := hj.start
  close := hi
  entry := by
    simp only [Image.jumpTarget, pairEntries]
    rw [List.getElem?_set_ne hj.lt.ne', List.getElem?_set_self (hj.lt.trans hlen), Option.getD_some]
  back := by
    have hlen' : i < (t.set j (some i)).length := by rwa [List.length_set]
    simp only [Image.jumpTarget, pairEntries]
    rw [List.getElem?_set_self hlen', Option.getD_some]
  lt := hj.lt
  balanced := hj.balanced

section

variable {j : Nat} {stack : List Nat} {t : List (Option Nat)}

/-- What has an entry is neither the loop end to come nor a pending loop, so a new pair keeps it. -/
theorem Scan.Inv.jumpTarget_pairEntries (h : Scan.Inv prog i ⟨j :: stack, t⟩) {p q : Nat}
    (hp : Image.jumpTarget ⟨prog, t⟩ p = some q) :
    Image.jumpTarget ⟨prog, pairEntries t j i⟩ p = Image.jumpTarget ⟨prog, t⟩ p := by
  apply jumpTarget_pairEntries_of_ne
  · rintro rfl
    cases (h.unseen p le_rfl).symm.trans hp
  · rintro rfl
    cases (h.pending 0 p rfl).noEntry.symm.trans hp

theorem Scan.Inv.pair_pairEntries (h : Scan.Inv prog i ⟨j :: stack, t⟩) {p q : Nat}
    (hp : Image.Pair ⟨prog, t⟩ p q) : Image.Pair ⟨prog, pairEntries t j i⟩ p q :=
  hp.congr (h.jumpTarget_pairEntries hp.entry) (h.jumpTarget_pairEntries hp.back)

theorem Scan.Inv.closed (h : Scan.Inv prog i ⟨j :: stack, t⟩)
    (hi : prog[i]? = some (encode .loopEnd)) : Scan.Inv prog (i + 1) ⟨stack, pairEntries t j i⟩ := by
  have hj : Image.Pending ⟨prog, t⟩ i 0 j := h.pending 0 j rfl
  have hnew : Image.Pair ⟨prog, pairEntries t j i⟩ j i :=
    hj.pair hi (h.length ▸ (List.getElem?_eq_some_iff.1 hi).1)
  obtain ⟨hjs, hnodup⟩ := List.nodup_cons.1 h.nodup
  refine ⟨by simpa [pairEntries] using h.length, hnodup, fun k l hk => ?pending, fun p hp => ?seen,
    fun p hp => ?unseen⟩
  case pending =>
    have hl : Image.Pending ⟨prog, t⟩ i (k + 1) l := h.pending (k + 1) l hk
    have hlj : l ≠ j := by
      rintro rfl
      exact hjs (List.mem_of_getElem? hk)
    exact (hl.next hi (balancedFrom_end_succ k)).congr (jumpTarget_pairEntries_of_ne t hl.lt.ne hlj)
  case seen =>
    rcases Nat.lt_succ_iff_lt_or_eq.1 hp with hlt | rfl
    · rcases h.seen p hlt with hmem | ⟨q, hq⟩ | ⟨q, hq⟩ | hplain
      · rcases List.mem_cons.1 hmem with rfl | hmem
        · exact .inr (.inl ⟨i, hnew⟩)
        · exact .inl hmem
      · exact .inr (.inl ⟨q, h.pair_pairEntries hq⟩)
      · exact .inr (.inr (.inl ⟨q, h.pair_pairEntries hq⟩))
      · have hpj : p ≠ j := by
          rintro rfl
          exact hplain.noStart hj.start
        exact .inr (.inr (.inr ⟨hplain.noStart, hplain.noEnd,
          (jumpTarget_pairEntries_of_ne t hlt.ne hpj).trans hplain.noEntry⟩))
    · exact .inr (.inr (.inl ⟨j, hnew⟩))
  case unseen =>
    have hip : i < p := hp
    exact (jumpTarget_pairEntries_of_ne t hip.ne' (hj.lt.trans hip).ne').trans (h.unseen p hip.le)

end

/-- The scan keeps its invariant to the program's end. -/
theorem resolve_inv {sc' : Scan} (bs : List Byte) : ∀ (i : Nat) (sc : Scan), prog.drop i = bs →
    sc.Inv prog i → resolve i sc bs = some sc' → sc'.Inv prog (i + bs.length) := by
  induction bs with
  | nil => rintro i sc - h ⟨⟩; exact h
  | cons b bs ih =>
    intro i sc hdrop h hr
    have hi : prog[i]? = some b := by
      rw [← Nat.add_zero i, ← List.getElem?_drop, hdrop]; rfl
    have hrest : prog.drop (i + 1) = bs := by rw [← List.drop_drop, hdrop]; rfl
    rw [List.length_cons, ← Nat.add_assoc, Nat.add_right_comm]
    by_cases hs : b = encode .loopStart
    · subst hs
      exact ih _ _ hrest (h.opened hi) (resolve_start i sc bs ▸ hr)
    · by_cases he : b = encode .loopEnd
      · subst he
        obtain ⟨stack, table⟩ := sc
        cases stack with
        | nil => cases (resolve_end_nil i table bs).symm.trans hr
        | cons j stack => exact ih _ _ hrest (h.closed hi) (resolve_end_cons i j stack table bs ▸ hr)
      · exact ih _ _ hrest (h.other hi hs he) (resolve_other hs he i sc bs ▸ hr)

/-! ### The image built -/

/-- A scan with no loop left open satisfies R55. -/
theorem Scan.Inv.table_ok {t : List (Option Nat)} (h : Scan.Inv prog prog.length ⟨[], t⟩) :
    Image.domainOk ⟨prog, t⟩ = true ∧ Image.tableOk ⟨prog, t⟩ = true := by
  refine ⟨(Image.domainOk_iff _).2 h.unseen, (Image.tableOk_iff _).2 fun p hp => ?_⟩
  rcases h.seen p hp with hmem | ⟨q, hq⟩ | ⟨q, hq⟩ | hplain
  · cases hmem
  · exact hq.entryOk_start
  · exact hq.entryOk_close
  · exact hplain.entryOk

end

/-- Settles O7: the length and the bytes by R57 and R60, the table by the invariant of the scan. -/
theorem loaderBuildsWellFormedImages : Obligations.LoaderBuildsWellFormedImages := by
  intro c src img h
  obtain ⟨hprog, hlen, hscan⟩ := build_eq_image h
  have hinv := resolve_inv img.prog 0 _ List.drop_zero (Scan.inv_start img.prog) hscan
  rw [Nat.zero_add] at hinv
  refine (Image.wf_iff c img).2 ⟨(Image.lengthOk_iff c img).2 hlen, ?_, hinv.table_ok⟩
  rw [Image.bytesOk_iff, hprog]
  exact fun _ => isOpcode_of_mem_loadFilter

/-- Settles O55: an image built is well-formed, so boot refuses neither it nor the configuration. -/
theorem builtProgramsBoot : Obligations.BuiltProgramsBoot := by
  intro c src img hc h
  have hw := loaderBuildsWellFormedImages c src img h
  rw [Machine.bootSource, h]
  simp [Machine.boot, hc, hw]

/-- The loader's filter keeps the bytes of the alphabet of R50, written out. -/
theorem loadFilter_eq (src : List Byte) : loadFilter src = src.filter (fun b =>
    b ∈ [0x3E#8, 0x3C#8, 0x2B#8, 0x2D#8, 0x2E#8, 0x2C#8, 0x5B#8, 0x5D#8]) := by
  refine List.filter_congr fun b _ => ?_
  rw [Bool.eq_iff_iff, isOpcode_iff_mem, decide_eq_true_iff]

/-- A source without brackets that is not too long loads, with the table of a scan not yet begun. -/
theorem build_of_no_brackets {c : Config} {src : List Byte} (hlen : (loadFilter src).length ≤ c.progMax)
    (hs : encode .loopStart ∉ src) (he : encode .loopEnd ∉ src) :
    build c src = .image ⟨loadFilter src, (Scan.start (loadFilter src).length).table⟩ := by
  have hscan := resolve_of_no_brackets (bs := loadFilter src) 0 (Scan.start (loadFilter src).length)
    (fun h => hs (List.mem_of_mem_filter h)) (fun h => he (List.mem_of_mem_filter h))
  rw [build_of_le hlen, loadResolve, hscan]
  rfl

/-- Settles O5: what is built holds the filtered source by `build_eq_image`; without brackets the scan
leaves its empty table. -/
theorem loaderFilters : Obligations.LoaderFilters := by
  intro c src kept
  have hkept : loadFilter src = kept := loadFilter_eq src
  refine ⟨fun img h => ?_, fun hlen hs he => ?_⟩
  · obtain ⟨hprog, -⟩ := build_eq_image h
    rw [Image.count, hprog, hkept]
    exact ⟨rfl, rfl⟩
  · rw [← hkept] at hlen
    exact ⟨_, build_of_no_brackets hlen hs he, hkept,
      fun i => (Scan.inv_start (loadFilter src)).unseen i (Nat.zero_le i)⟩

end Sys2Proof
end

section
/-! The step of R69, an equation per line of it; then what follows for the end of a program and for the
steps after a run. -/

namespace Sys2Proof.Machine

section

variable {s t : State}

/-! ### The lines of R69 -/

/-- R67. -/
theorem step_of_endOfProgram (h : s.fsm = .endOfProgram) :
    step s = .next (s.respond .endOfProgram) := by
  rw [step, h]
  rfl

/-- R67. -/
theorem step_of_faulted (h : s.fsm = .faulted) :
    step s = .next (s.respond (.fault s.faultCause)) := by
  rw [step, h]
  rfl

theorem step_of_running (h : s.fsm = .running) : step s = stepFetched s.fetched s := by
  rw [step, h]

/-- R71. -/
theorem step_at_end (h : s.fsm = .running) (hn : s.image.count ≤ s.pc) :
    step s = .next s.enterEnd := by
  have hf : s.fetched = .ended := (fetchAt_ended_iff _ _).2 hn
  rw [step_of_running h, hf]
  rfl

/-- R73. -/
theorem step_at_illegal {b : Byte} (h : s.fsm = .running) (hf : s.image.fetch s.pc = some b)
    (hb : isOpcode b = false) : step s = .next (s.enterFault .illegalInstruction) := by
  have hfetched : s.fetched = .illegal b := (fetchAt_illegal_iff _ _ _).2 ⟨hf, hb⟩
  rw [step_of_running h, hfetched]
  rfl

/-- R72. -/
theorem step_at_instr {i : Instr} (h : s.fsm = .running)
    (hf : s.image.fetch s.pc = some (encode i)) : step s = exec i s := by
  have hfetched : s.fetched = .instr i := (fetchAt_instr_iff _ _ _).2 hf
  rw [step_of_running h, hfetched]
  rfl

/-! ### The end of a program and the steps after a run -/

/-- R71: the end check is the only thing that ends a program. -/
theorem StepEffect.count_le_of_end (h : StepEffect s t) (hr : s.fsm = .running)
    (ht : t.fsm = .endOfProgram) : s.image.count ≤ s.pc := by
  cases h with
  | ended hs | faulted hs => cases hr.symm.trans hs
  | finished _ hn => exact hn
  | illegal => cases ht
  | ran i _ _ _ he =>
    rcases he.status with ⟨hs, -⟩ | ⟨hs, -⟩
    · cases hr.symm.trans (hs.symm.trans ht)
    · cases hs.symm.trans ht

theorem State.terminal_iff (s : State) :
    s.terminal = true ↔ s.fsm = .endOfProgram ∨ s.fsm = .faulted := by
  cases hs : s.fsm <;> simp [State.terminal, hs]

/-- A response that a step repeats is repeated by every number of further steps. -/
theorem stepN_respond {r : Response} (h : step s = .next (s.respond r))
    (hagain : step (s.respond r) = .next (s.respond r)) (k : Nat) :
    stepN (k + 1) s = .next (s.respond r) := by
  rw [stepN_succ h, stepN_of_fixed hagain]

/-- R79. -/
theorem stepN_of_endOfProgram (h : s.fsm = .endOfProgram) (k : Nat) :
    stepN (k + 1) s = .next (s.respond .endOfProgram) :=
  stepN_respond (step_of_endOfProgram h) (step_of_endOfProgram (s := s.respond .endOfProgram) h) k

/-- R100. -/
theorem stepN_of_faulted (h : s.fsm = .faulted) (k : Nat) :
    stepN (k + 1) s = .next (s.respond (.fault s.faultCause)) :=
  stepN_respond (step_of_faulted h) (step_of_faulted (s := s.respond (.fault s.faultCause)) h) k

end

/-- Settles O11: `step_alike` shows of each way a step can end that it answers a next state. -/
theorem stepAlwaysAnswers : Obligations.StepAlwaysAnswers := by
  intro s
  obtain ⟨t, -, -, ht, -⟩ := step_alike s.wait s.resp s.emitted s
  exact ⟨t, ht⟩

/-- Settles O12: the end check fires at `pc = N = 0` as well, and no other case of a step ends. -/
theorem endCheck : Obligations.EndCheck :=
  ⟨fun _ => step_at_end, fun _ _ hr h => (step_effect h).count_le_of_end hr,
    fun _ => step_at_end rfl le_rfl⟩

/-- Settles O15: the state that repeats the response of `fsm` is one a step leaves as it is. -/
theorem terminalForEver : Obligations.TerminalForEver := by
  intro s h
  rcases s.terminal_iff.1 h with hs | hs
  · exact ⟨.endOfProgram, fun _ => rfl, by simp [hs], stepN_of_endOfProgram hs⟩
  · exact ⟨.fault s.faultCause, by simp [hs], fun _ => rfl, stepN_of_faulted hs⟩

/-- Settles O10: a byte that decodes to an instruction is its opcode. -/
theorem stepRunsDecodedInstruction : Obligations.StepRunsDecodedInstruction := by
  intro s b i hr hf hd
  rw [(decode_eq_instr_iff b i).1 hd] at hf
  exact step_at_instr hr hf

/-- Settles O13: the bytes written out are the alphabet, by `isOpcode_iff_mem`, which R54 checks. -/
theorem illegalInstructionByte : Obligations.IllegalInstructionByte := by
  refine ⟨fun s b hr hf hb => ?_, fun c img i b hw hf => ?_⟩
  · rw [← isOpcode_iff_mem, Bool.not_eq_true] at hb
    exact step_at_illegal hr hf hb
  · exact (isOpcode_iff_mem b).1 (Image.isOpcode_of_wf hw hf)

/-- Settles O14, by the two lines of R69 for the terminal states. -/
theorem terminalStepsRepeat : Obligations.TerminalStepsRepeat :=
  ⟨fun _ => step_of_endOfProgram, fun _ => step_of_faulted⟩

end Sys2Proof.Machine
end

section
/-! The commit of R74: a step before the end commits, faults or waits, and its response says which. -/

namespace Sys2Proof.Machine

/-- R70, R74, R90, R91: `t`'s counter is the tentative next one of `s`, or one past the entry of the
bracket at `s`'s. -/
def CounterAdvanced (s t : State) : Prop :=
  t.pc = s.nextPc ∨
    (s.image.fetch s.pc = some (encode .loopStart) ∨ s.image.fetch s.pc = some (encode .loopEnd)) ∧
      ∃ j, s.image.jumpTarget s.pc = some j ∧ t.pc = s.pcPast j

section

variable {i : Instr} {s t : State}

/-- An instruction commits (R74), faults (R99) or waits (R26). -/
theorem Effect.outcome (h : Effect i s t) (hf : s.image.fetch s.pc = some (encode i)) :
    (t.resp = some (.executed s.pc) ∧ t.fsm = s.fsm ∧ CounterAdvanced s t) ∨
      (t.fsm = .faulted ∧ ∃ c, t.resp = some (.fault c)) ∨ (t.wait ≠ .idle ∧ t.resp = none) := by
  cases h with
  | moved | modified | emitted | stored | passed => exact .inl ⟨rfl, rfl, .inl rfl⟩
  | jumped j hi _ hj =>
    have hbracket := hi.imp (fun hs => hs.1 ▸ hf) (fun he => he.1 ▸ hf)
    exact .inl ⟨rfl, rfl, .inr ⟨hbracket, j, hj, rfl⟩⟩
  | inputFailed | inputLost | noTarget | readViolation | writeViolation =>
    exact .inr (.inl ⟨rfl, _, rfl⟩)
  | offering | asking => exact .inr (.inr ⟨nofun, rfl⟩)

/-- A step before the end commits, faults or waits. -/
theorem StepEffect.outcome (h : StepEffect s t) (hr : s.fsm = .running)
    (hlt : s.pc < s.image.count) :
    (t.resp = some (.executed s.pc) ∧ t.fsm = .running ∧ CounterAdvanced s t) ∨
      (t.fsm = .faulted ∧ ∃ c, t.resp = some (.fault c)) ∨ (t.wait ≠ .idle ∧ t.resp = none) := by
  cases h with
  | ended hs | faulted hs => cases hr.symm.trans hs
  | finished _ hn => exact absurd hlt (not_lt.2 hn)
  | illegal => exact .inr (.inl ⟨rfl, _, rfl⟩)
  | ran i _ _ hf he => exact hr ▸ he.outcome hf

/-- R7, R54: the counter one past an instruction of an admitted program does not wrap. -/
theorem State.Admitted.succ_mod (h : s.Admitted) {n : Nat} (hn : n < s.image.count) :
    (n + 1) % 2 ^ s.cfg.pcW = n + 1 := by
  obtain ⟨hlen, -⟩ := (Image.wf_iff s.cfg s.image).1 h.image
  have hmax : n + 1 ≤ s.cfg.progMax := Nat.le_trans hn ((Image.lengthOk_iff _ _).1 hlen)
  exact Nat.mod_eq_of_lt (hmax.trans_lt (Config.progMax_lt_of_wf h.inv.config))

/-- R77: in an admitted program the counter advances without wrapping. -/
theorem CounterAdvanced.pc_of_admitted (h : CounterAdvanced s t) (hs : s.Admitted)
    (hlt : s.pc < s.image.count) :
    t.pc = s.pc + 1 ∨ ∃ j, s.image.jumpTarget s.pc = some j ∧ t.pc = j + 1 := by
  rcases h with hp | ⟨-, j, hj, hp⟩
  · exact .inl (hp.trans (hs.succ_mod hlt))
  · obtain ⟨-, -, hjlt⟩ := Image.jumpTarget_symm hs.image hj
    exact .inr ⟨j, hj, hp.trans (hs.succ_mod hjlt)⟩

end

/-- Settles O16: of the three outcomes, what neither faults nor waits is the commit. -/
theorem commitAdvancesCounter : Obligations.CommitAdvancesCounter := by
  intro s t hr hlt h hfault hwait
  rcases (step_effect h).outcome hr hlt with hcommit | ⟨hf, -⟩ | ⟨hw, -⟩
  · exact hcommit
  · exact absurd hf hfault
  · exact absurd hwait hw

/-- Settles O24: `pc` and the entries of the brackets are program indices, so one past them is at most
`N`, which the counter holds; and a step that answers EXECUTED is one that committed. -/
theorem counterNeverWraps : Obligations.CounterNeverWraps := by
  intro s hs hr hlt
  refine ⟨hs.succ_mod hlt, fun t h => ⟨?_, fun hexec => ?_⟩⟩
  · rw [(step_effect h).cfg_image.2]
    exact (step_effect h).pc_le_count hs.image hlt.le
  · rcases (step_effect h).outcome hr hlt with ⟨-, -, hpc⟩ | ⟨-, c, hfault⟩ | ⟨-, hnone⟩
    · exact hpc.pc_of_admitted hs hlt
    · cases hexec.symm.trans hfault
    · cases hexec.symm.trans hnone

end Sys2Proof.Machine
end

section
/-! What boot starts and what it refuses (R78, R112), and the encoding of the response (R66). -/

namespace Sys2Proof.Machine

section

variable {c : Config} {img : Image}

theorem boot_of_wf (hc : c.wf = true) (hw : img.wf c = true) :
    boot c img = .next (State.resetOf c img) := by
  rw [boot, if_pos hc, if_pos hw]

theorem boot_of_config_not_wf (hc : c.wf = false) : boot c img = .refused .configNotAdmitted := by
  rw [boot, if_neg (Bool.eq_false_iff.1 hc)]

theorem boot_of_image_not_wf (hc : c.wf = true) (hw : img.wf c = false) :
    boot c img = .refused .imageNotWellFormed := by
  rw [boot, if_pos hc, if_neg (Bool.eq_false_iff.1 hw)]

theorem boot_eq_next_iff (s : State) :
    boot c img = .next s ↔ c.wf = true ∧ img.wf c = true ∧ s = State.resetOf c img := by
  cases hc : c.wf with
  | false => simp [boot_of_config_not_wf hc]
  | true =>
    cases hw : img.wf c with
    | false => simp [boot_of_image_not_wf hc hw]
    | true => simp [boot_of_wf hc hw, eq_comm]

theorem bootSource_of_error {src : List Byte} {e : LoadError} (h : build c src = .error e) :
    bootSource c src = .loadFailed e := by
  rw [bootSource, h]

end

/-- Settles O54, check by check of boot, and the loader's error before them. -/
theorem bootAdmitsWellFormedOnly : Obligations.BootAdmitsWellFormedOnly :=
  ⟨fun _ _ => boot_eq_next_iff, fun _ _ => boot_of_config_not_wf, fun _ _ => boot_of_image_not_wf,
    fun _ _ _ => bootSource_of_error⟩

/-- R66: the kinds are three, and none of them is `0b11`. -/
theorem Response.kind_ne_reserved (r : Response) : r.kind ≠ 0b11#2 := by
  cases r <;> simp [Response.kind]

/-- Settles O57, kind by kind. -/
theorem responseEncoding : Obligations.ResponseEncoding :=
  ⟨fun _ => ⟨rfl, rfl, rfl⟩, ⟨rfl, rfl, rfl⟩, fun _ => ⟨rfl, rfl, rfl⟩, Response.kind_ne_reserved⟩

end Sys2Proof.Machine
end

section
/-! The two moves of the memory pointer (R80 to R82): what each answers, where it leads at the ends of the
tape and of the pointer's range, and that each undoes the other. -/

namespace Sys2Proof.Machine

/-! ### What a move answers -/

/-- R81. -/
theorem exec_ptrInc (s : State) :
    exec .ptrInc s = .next ((s.setMp s.mpUp).advance s.nextPc) := rfl

/-- R82. -/
theorem exec_ptrDec (s : State) :
    exec .ptrDec s = .next ((s.setMp s.mpDown).advance s.nextPc) := rfl

/-- Either move writes the pointer and commits. -/
theorem exec_eq_setMp_advance {i : Instr} (hi : i = .ptrInc ∨ i = .ptrDec) (s : State) :
    ∃ m, exec i s = .next ((s.setMp m).advance s.nextPc) := by
  rcases hi with rfl | rfl
  · exact ⟨s.mpUp, exec_ptrInc s⟩
  · exact ⟨s.mpDown, exec_ptrDec s⟩

/-! ### The pointer at the ends of its range -/

/-- R9: the register holds the non-negative remainder itself. -/
theorem State.toNat_emod_eq_mpDown (s : State) :
    (((s.mp : Int) - 1) % ((2 ^ s.cfg.mpW : Nat) : Int)).toNat = s.mpDown := by
  rw [← s.mpDown_eq_emod, Int.toNat_natCast]

section

variable {s : State}

theorem State.mpUp_of_succ_lt (h : s.mp + 1 < 2 ^ s.cfg.mpW) : s.mpUp = s.mp + 1 :=
  Nat.mod_eq_of_lt h

theorem State.mpUp_of_top (h : s.mp = 2 ^ s.cfg.mpW - 1) : s.mpUp = 0 := by
  rw [State.mpUp, h, Nat.sub_add_cancel Nat.one_le_two_pow, Nat.mod_self]

theorem State.mpDown_of_zero (h : s.mp = 0) : s.mpDown = 2 ^ s.cfg.mpW - 1 := by
  rw [State.mpDown, h, Nat.zero_add]
  exact Nat.mod_eq_of_lt (Nat.sub_lt (Nat.two_pow_pos _) Nat.one_pos)

/-! ### The moves undo each other -/

/-- R80: one up and the whole range less one up is a full turn. -/
theorem State.full_turn_mod (h : s.mp < 2 ^ s.cfg.mpW) :
    (s.mp + 1 + (2 ^ s.cfg.mpW - 1)) % 2 ^ s.cfg.mpW = s.mp := by
  rw [Nat.add_assoc, Nat.add_sub_cancel' Nat.one_le_two_pow, Nat.add_mod_right, Nat.mod_eq_of_lt h]

theorem State.mpDown_setMp_mpUp (h : s.mp < 2 ^ s.cfg.mpW) : (s.setMp s.mpUp).mpDown = s.mp := by
  rw [State.mpDown, State.setMp_mp, State.setMp_cfg, State.mpUp, Nat.mod_add_mod, full_turn_mod h]

theorem State.mpUp_setMp_mpDown (h : s.mp < 2 ^ s.cfg.mpW) : (s.setMp s.mpDown).mpUp = s.mp := by
  rw [State.mpUp, State.setMp_mp, State.setMp_cfg, State.mpDown, Nat.mod_add_mod, Nat.add_right_comm,
    full_turn_mod h]

end

/-- Settles O35: the second move starts at the pointer the first one wrote, and the commit between them
leaves the pointer alone. -/
theorem pointerMovesAreInverse : Obligations.PointerMovesAreInverse := fun s h =>
  ⟨⟨_, _, exec_ptrInc s, exec_ptrDec _, State.mpDown_setMp_mpUp h⟩,
    ⟨_, _, exec_ptrDec s, exec_ptrInc _, State.mpUp_setMp_mpDown h⟩⟩

/-- Settles O44: the pointer's write and the commit leave every other piece of the state. -/
theorem framePointerMoves : Obligations.FramePointerMoves := by
  intro i s t hi h
  obtain ⟨m, hm⟩ := exec_eq_setMp_advance hi s
  cases hm.symm.trans h
  exact ⟨rfl, rfl, rfl, rfl, rfl, rfl, rfl, fun _ => rfl⟩

/-- Settles O33: one past the last cell is still a value of the pointer and is out of bounds; one past the
top value is cell 0. -/
theorem ptrIncResult : Obligations.PtrIncResult := by
  refine ⟨rfl, exec_ptrInc, fun s hc => ⟨_, exec_ptrInc s, fun hlast => ?_, fun htop => ?_⟩⟩
  · have hmp : s.mpUp = s.cfg.tapeLen :=
      (State.mpUp_of_succ_lt (hlast ▸ Config.tapeLen_lt_of_wf hc)).trans hlast
    exact ⟨hmp, memRead_of_le hmp.ge, fun v => memWrite_of_le v hmp.ge⟩
  · have hmp : s.mpUp = 0 := State.mpUp_of_top htop
    obtain ⟨-, ⟨hcell, -⟩, -⟩ := s.cfg.wf_iff.1 hc
    exact ⟨hmp, (State.inBounds_iff _ _).2 (hmp.trans_lt hcell)⟩

/-- Settles O34: the pointer written is the non-negative remainder, which at 0 is the top value, and that
is out of bounds. -/
theorem ptrDecResult : Obligations.PtrDecResult := by
  refine ⟨rfl, fun s => ?_, fun s hc hzero => ?_⟩
  · rw [s.toNat_emod_eq_mpDown]
    exact exec_ptrDec s
  · have hmp : s.mpDown = 2 ^ s.cfg.mpW - 1 := State.mpDown_of_zero hzero
    have hout : s.cfg.tapeLen ≤ s.mpDown :=
      hmp ▸ Nat.le_sub_one_of_lt (Config.tapeLen_lt_of_wf hc)
    exact ⟨_, exec_ptrDec s, hmp, memRead_of_le hout, fun v => memWrite_of_le v hout⟩

end Sys2Proof.Machine
end

section
/-! Cell arithmetic (R83 to R85): the law modulo 256, and what `+` and `-` answer in bounds and out of
bounds, said once for both. -/

namespace Sys2Proof.Machine

/-! ### Arithmetic on one cell -/

/-- R83. -/
theorem cellUp_eq_ofNat (v : Byte) : cellUp v = BitVec.ofNat 8 ((v.toNat + 1) % 256) :=
  BitVec.eq_of_toNat_eq (by simp [cellUp])

/-- R83: one less is 255 more, modulo 256. -/
theorem cellDown_eq_ofNat (v : Byte) : cellDown v = BitVec.ofNat 8 ((v.toNat + 255) % 256) :=
  BitVec.eq_of_toNat_eq (by simp [cellDown, BitVec.toNat_sub, Nat.add_comm])

theorem toNat_cellUp (v : Byte) : (cellUp v).toNat = (v.toNat + 1) % 256 :=
  BitVec.toNat_add v 1#8

/-- R9: what the cell holds is the non-negative remainder. -/
theorem toNat_cellDown_eq_emod (v : Byte) :
    ((cellDown v).toNat : Int) = ((v.toNat : Int) - 1) % 256 := by
  rw [cellDown_eq_ofNat, BitVec.toNat_ofNat]
  omega

theorem cellDown_cellUp (v : Byte) : cellDown (cellUp v) = v := BitVec.add_sub_cancel v 1#8

theorem cellUp_cellDown (v : Byte) : cellUp (cellDown v) = v := BitVec.sub_add_cancel v 1#8

/-! ### What `+` and `-` answer -/

/-- The instruction `i` applies `f` to the cell at `mp` (R84, R85). -/
inductive CellOp : Instr → (Byte → Byte) → Prop
  | inc : CellOp .cellInc cellUp
  | dec : CellOp .cellDec cellDown

theorem exists_cellOp {i : Instr} (hi : i = .cellInc ∨ i = .cellDec) : ∃ f, CellOp i f := by
  rcases hi with rfl | rfl
  · exact ⟨cellUp, .inc⟩
  · exact ⟨cellDown, .dec⟩

section

variable {i : Instr} {f : Byte → Byte} {s : State}

theorem modifyOperand_of_lt (h : s.mp < s.cfg.tapeLen) :
    modifyOperand s = .value (s.tape.read s.mp) :=
  ((modifyOperand_spec s).resolve_right fun hout => not_lt.2 hout.1 h).2

theorem writeOperand_of_lt (v : Byte) (next : Nat) (h : s.mp < s.cfg.tapeLen) :
    writeOperand v next s = .next ((s.setCell s.mp v).advance next) :=
  ((writeOperand_spec v next s).resolve_right fun hout => not_lt.2 hout.1 h).2

/-- R84, R85: in bounds, the cell is written back and the step commits. -/
theorem CellOp.exec_of_lt (h : CellOp i f) (hb : s.mp < s.cfg.tapeLen) :
    exec i s = .next ((s.setCell s.mp (f (s.tape.read s.mp))).advance s.nextPc) := by
  cases h with
  | inc => simp only [exec, execCellInc, modifyOperand_of_lt hb, writeOperand_of_lt _ _ hb]
  | dec => simp only [exec, execCellDec, modifyOperand_of_lt hb, writeOperand_of_lt _ _ hb]

/-- R84, R85, R95: out of bounds, the fault comes before any write. -/
theorem CellOp.exec_of_le (h : CellOp i f) (hb : s.cfg.tapeLen ≤ s.mp) :
    exec i s = .next (s.enterFault .writeAccessViolation) := by
  cases h with
  | inc => simp only [exec, execCellInc, modifyOperand_of_le hb, raiseFault]
  | dec => simp only [exec, execCellDec, modifyOperand_of_le hb, raiseFault]

end

/-- Settles O45: in bounds the one write is at `mp`, which leaves every other cell; out of bounds fault
entry leaves the tape. -/
theorem frameCellArithmetic : Obligations.FrameCellArithmetic := by
  intro i s t hi hw ht
  obtain ⟨f, hf⟩ := exists_cellOp hi
  rcases lt_or_ge s.mp s.cfg.tapeLen with hb | hb
  · cases (hf.exec_of_lt hb).symm.trans ht
    refine ⟨rfl, rfl, rfl, rfl, rfl, rfl, ?_, fun _ => ⟨rfl, rfl⟩,
      fun hout => absurd hb (not_lt.2 hout)⟩
    rintro _ rfl b hne
    rw [State.advance_tape, State.setCell_tape, Memory.read_write _ _ _ _ hw, if_neg hne]
  · cases (hf.exec_of_le hb).symm.trans ht
    exact ⟨rfl, rfl, rfl, rfl, rfl, rfl, fun _ _ _ _ => rfl, fun hin => absurd hin (not_lt.2 hb),
      fun _ => ⟨rfl, fun _ => rfl⟩⟩

/-- Settles O36: the law of R83, its two wraps, and the group laws of bit vectors. -/
theorem cellArithmetic : Obligations.CellArithmetic := fun v =>
  ⟨toNat_cellUp v, toNat_cellDown_eq_emod v, rfl, rfl, cellDown_cellUp v, cellUp_cellDown v⟩

/-- Settles O37: `CellOp.inc` in bounds, with the sum read as a number, and out of bounds. -/
theorem cellIncResult : Obligations.CellIncResult := by
  refine ⟨rfl, fun s hb => ?_, fun s hb => CellOp.inc.exec_of_le hb⟩
  rw [← cellUp_eq_ofNat]
  exact CellOp.inc.exec_of_lt hb

/-- Settles O38: `CellOp.dec` in bounds, with the difference read as a number, and out of bounds. -/
theorem cellDecResult : Obligations.CellDecResult := by
  refine ⟨rfl, fun s hb => ?_, fun s hb => CellOp.dec.exec_of_le hb⟩
  rw [← cellDown_eq_ofNat]
  exact CellOp.dec.exec_of_lt hb

end Sys2Proof.Machine
end

section
/-! Output and input (R86 to R89): what `.` and `,` answer on each path, and the frames of the instructions
that move no pointer. -/

namespace Sys2Proof.Machine

section

variable {s : State}

/-! ### What `.` answers -/

theorem readOperand_of_lt (h : s.mp < s.cfg.tapeLen) : readOperand s = .value (s.tape.read s.mp) :=
  memRead_of_lt h

theorem readOperand_of_le (h : s.cfg.tapeLen ≤ s.mp) :
    readOperand s = .violation .readAccessViolation :=
  memRead_of_le h

theorem emitAndCommit_of_ready (b : Byte) (next : Nat) (h : s.sinkReady = true) :
    emitAndCommit b next s = .next ((s.handOver b).advance next) := by
  rw [emitAndCommit, if_pos h, commit]

theorem emitAndCommit_of_not_ready (b : Byte) (next : Nat) (h : s.sinkReady = false) :
    emitAndCommit b next s = .next (s.holdIn (.emit b)) := by
  rw [emitAndCommit, if_neg (Bool.eq_false_iff.1 h), hold]

/-- R88: in bounds, the cell is emitted. -/
theorem exec_output_of_lt (h : s.mp < s.cfg.tapeLen) :
    exec .output s = emitAndCommit (s.tape.read s.mp) s.nextPc s := by
  simp only [exec, execOutput, readOperand_of_lt h]

/-- R88, R94: out of bounds, the fault comes before `Emit`. -/
theorem exec_output_of_le (h : s.cfg.tapeLen ≤ s.mp) :
    exec .output s = .next (s.enterFault .readAccessViolation) := by
  simp only [exec, execOutput, readOperand_of_le h, raiseFault]

/-! ### What `,` answers -/

theorem writeOperand_of_le (v : Byte) (next : Nat) (h : s.cfg.tapeLen ≤ s.mp) :
    writeOperand v next s = .next (s.enterFault .writeAccessViolation) :=
  ((writeOperand_spec v next s).resolve_left fun hin => not_lt.2 h hin.1).2

theorem receive_of_nil (h : s.answers = []) : receive s = .nothing := by
  simp only [receive, h]

theorem receive_of_cons {x : InputAnswer} {rest : List InputAnswer} (h : s.answers = x :: rest) :
    receive s = .answer x { s with answers := rest } := by
  simp only [receive, State.dropAnswer, h, List.tail_cons]

/-- R89, R116: with no answer the step waits. -/
theorem exec_input_of_nil (h : s.answers = []) : exec .input s = .next (s.holdIn .receive) := by
  simp only [exec, execInput, receive_of_nil h, hold]

/-- R89, R96: a failing source is reported before the bounds are looked at. -/
theorem exec_input_of_fail {rest : List InputAnswer} (h : s.answers = .fail :: rest) :
    exec .input s =
      .next (State.enterFault .inputSourceFailure { s with answers := rest }) := by
  simp only [exec, execInput, receive_of_cons h, raiseFault]

/-- R89: the byte received is consumed, then written. -/
theorem exec_input_of_data {b : Byte} {rest : List InputAnswer} (h : s.answers = .data b :: rest) :
    exec .input s = writeOperand b s.nextPc { s with answers := rest } := by
  have hnext : ({ s with answers := rest } : State).nextPc = s.nextPc := rfl
  simp only [exec, execInput, receive_of_cons h, hnext]

end

/-- Settles O39: in bounds by the sink's level, and out of bounds before `Emit`. -/
theorem outputResult : Obligations.OutputResult := by
  refine ⟨rfl, fun s hb hr => ?_, fun s hb hr => ?_, fun s hb => exec_output_of_le hb⟩
  · rw [exec_output_of_lt hb]
    exact emitAndCommit_of_ready _ _ hr
  · rw [exec_output_of_lt hb]
    exact emitAndCommit_of_not_ready _ _ hr

/-- Settles O40: a byte answered is written from the state without it, by the bounds; a failing source and
a missing answer end the step before. -/
theorem inputResult : Obligations.InputResult := by
  refine ⟨rfl, fun s b rest ha hb => ?_, fun s b rest ha hb => ?_,
    fun s rest ha => exec_input_of_fail ha, fun s ha => exec_input_of_nil ha⟩
  · rw [exec_input_of_data ha]
    exact writeOperand_of_lt (s := { s with answers := rest }) b _ hb
  · rw [exec_input_of_data ha]
    exact writeOperand_of_le (s := { s with answers := rest }) b _ hb

/-! ### Frames -/

section

variable {i : Instr} {s t : State}

theorem Effect.sinkReady (h : Effect i s t) : t.sinkReady = s.sinkReady := by
  cases h <;> rfl

theorem Effect.mp_of_ne (h : Effect i s t) (hup : i ≠ .ptrInc) (hdown : i ≠ .ptrDec) :
    t.mp = s.mp := by
  rcases h.mp with hm | ⟨hi, -⟩ | ⟨hi, -⟩
  · exact hm
  · exact absurd hi hup
  · exact absurd hi hdown

theorem Effect.emitted_of_ne (h : Effect i s t) (hi : i ≠ .output) : t.emitted = s.emitted :=
  h.emissions.resolve_right fun hemit => hi hemit.1

theorem Effect.answers_of_ne (h : Effect i s t) (hi : i ≠ .input) : t.answers = s.answers :=
  h.answers.resolve_right fun hx => hi hx.1

theorem Effect.tape_of_ne (h : Effect i s t) (hinc : i ≠ .cellInc) (hdec : i ≠ .cellDec)
    (hin : i ≠ .input) : t.tape = s.tape := by
  rcases h.tape with ht | ⟨hi | hi | hi, -⟩
  · exact ht
  · exact absurd hi hinc
  · exact absurd hi hdec
  · exact absurd hi hin

/-- R35: the only cell an instruction can store to is the one at `mp`. -/
theorem Effect.read_tape_of_ne (h : Effect i s t) (hw : s.tape.wf = true) {a : Nat} (ha : a ≠ s.mp) :
    t.tape.read a = s.tape.read a := by
  rcases h.tape with ht | ⟨-, -, v, ht⟩
  · rw [ht]
  · rw [ht, Memory.read_write _ _ _ _ hw, if_neg ha]

/-- R26, R99: an instruction that does not commit, because it waits or faults, moves no counter and stores
nothing. -/
theorem Effect.pc_tape_of_not_executed (h : Effect i s t) (hne : t.resp ≠ some (.executed s.pc)) :
    t.pc = s.pc ∧ t.tape = s.tape := by
  cases h with
  | moved | modified | emitted | stored | passed | jumped => exact absurd rfl hne
  | _ => exact ⟨rfl, rfl⟩

end

/-- Settles O46: the paths of `Effect` that write the pointer, the answers or the tape are those of the
other five instructions. -/
theorem frameReaders : Obligations.FrameReaders := by
  intro i s t hi h
  have he := exec_effect h
  obtain ⟨hup, hdown, hinc, hdec, hin⟩ :
      i ≠ .ptrInc ∧ i ≠ .ptrDec ∧ i ≠ .cellInc ∧ i ≠ .cellDec ∧ i ≠ .input := by
    rcases hi with rfl | rfl | rfl <;> decide
  exact ⟨he.cfg_image.1, he.cfg_image.2, he.mp_of_ne hup hdown, he.answers_of_ne hin, he.sinkReady,
    he.emitted_of_ne, he.status.symm.imp_left And.left,
    fun a => congrArg (·.read a) (he.tape_of_ne hinc hdec hin)⟩

/-- Settles O47: the one store there can be is at `mp`, and only the path that commits makes it. -/
theorem frameInput : Obligations.FrameInput := by
  intro s t hw h
  have he := exec_effect h
  refine ⟨he.cfg_image.1, he.cfg_image.2, he.mp_of_ne nofun nofun, he.sinkReady,
    he.emitted_of_ne nofun, he.status.symm.imp_left And.left, ?_, fun hne => ?_⟩
  · rintro _ rfl b hb
    exact he.read_tape_of_ne hw hb
  · obtain ⟨hpc, htape⟩ := he.pc_tape_of_not_executed hne
    exact ⟨hpc, fun b => by rw [htape]⟩

end Sys2Proof.Machine
end

section
/-! Loops (R90 to R92): what `[` and `]` answer on each path, and where a pair of brackets continues in an
admitted program. -/

namespace Sys2Proof.Machine

section

variable {s : State}

/-! ### What a bracket answers -/

theorem jumpPastTarget_of_some {t : Nat} (h : s.image.jumpTarget s.pc = some t) :
    jumpPastTarget s = .next (s.advance (s.pcPast t)) := by
  simp only [jumpPastTarget, h, commit]

theorem jumpPastTarget_of_none (h : s.image.jumpTarget s.pc = none) :
    jumpPastTarget s = .next (s.enterFault .missingJumpTarget) := by
  simp only [jumpPastTarget, h, raiseFault]

/-- R90: in bounds, `[` jumps at a zero cell. -/
theorem exec_loopStart_of_lt (h : s.mp < s.cfg.tapeLen) :
    exec .loopStart s =
      if s.tape.read s.mp = 0#8 then jumpPastTarget s else .next (s.advance s.nextPc) := by
  simp only [exec, execLoopStart, readOperand_of_lt h, cellIsZero_iff, commit]

/-- R91: in bounds, `]` jumps at a cell that is not zero. -/
theorem exec_loopEnd_of_lt (h : s.mp < s.cfg.tapeLen) :
    exec .loopEnd s =
      if s.tape.read s.mp = 0#8 then .next (s.advance s.nextPc) else jumpPastTarget s := by
  simp only [exec, execLoopEnd, readOperand_of_lt h, cellIsZero_iff, commit]

/-- R90, R94: out of bounds, the fault comes before the test. -/
theorem exec_loopStart_of_le (h : s.cfg.tapeLen ≤ s.mp) :
    exec .loopStart s = .next (s.enterFault .readAccessViolation) := by
  simp only [exec, execLoopStart, readOperand_of_le h, raiseFault]

/-- R91, R94: out of bounds, the fault comes before the test. -/
theorem exec_loopEnd_of_le (h : s.cfg.tapeLen ≤ s.mp) :
    exec .loopEnd s = .next (s.enterFault .readAccessViolation) := by
  simp only [exec, execLoopEnd, readOperand_of_le h, raiseFault]

/-! ### A pair in an admitted program -/

/-- R77: in an admitted program a bracket's jump does not wrap the counter. -/
theorem State.Admitted.jumpPastTarget_eq (hs : s.Admitted) {t : Nat}
    (ht : s.image.jumpTarget s.pc = some t) : jumpPastTarget s = .next (s.advance (t + 1)) := by
  obtain ⟨-, -, hlt⟩ := Image.jumpTarget_symm hs.image ht
  have hpast : s.pcPast t = t + 1 := hs.succ_mod hlt
  rw [jumpPastTarget_of_some ht, hpast]

/-- R77: in an admitted program a bracket's tentative next counter does not wrap. -/
theorem State.Admitted.nextPc_of_jumpTarget (hs : s.Admitted) {t : Nat}
    (ht : s.image.jumpTarget s.pc = some t) : s.nextPc = s.pc + 1 := by
  obtain ⟨-, hpc, -⟩ := Image.jumpTarget_symm hs.image ht
  exact hs.succ_mod hpc

/-- R92 at the `[` of a pair, whose `]` is at `j`. -/
theorem State.Admitted.step_at_loopStart (hs : s.Admitted) (hr : s.fsm = .running)
    (hb : s.mp < s.cfg.tapeLen) {j : Nat} (hf : s.image.fetch s.pc = some (encode .loopStart))
    (hj : s.image.jumpTarget s.pc = some j) :
    step s = .next (s.advance (if s.tape.read s.mp = 0#8 then j + 1 else s.pc + 1)) := by
  rw [step_at_instr hr hf, exec_loopStart_of_lt hb, hs.jumpPastTarget_eq hj,
    hs.nextPc_of_jumpTarget hj]
  split <;> rfl

/-- R92 at the `]` of a pair, whose `[` is at `i`. -/
theorem State.Admitted.step_at_loopEnd (hs : s.Admitted) (hr : s.fsm = .running)
    (hb : s.mp < s.cfg.tapeLen) {i : Nat} (hf : s.image.fetch s.pc = some (encode .loopEnd))
    (hi : s.image.jumpTarget s.pc = some i) :
    step s = .next (s.advance (if s.tape.read s.mp = 0#8 then s.pc + 1 else i + 1)) := by
  rw [step_at_instr hr hf, exec_loopEnd_of_lt hb, hs.jumpPastTarget_eq hi,
    hs.nextPc_of_jumpTarget hi]
  split <;> rfl

end

/-- Settles O43: the entry of the `[` is a `]` whose entry leads back, so each bracket passes or jumps to
one of the pair's two continuations. -/
theorem loopPairContinues : Obligations.LoopPairContinues := by
  intro s i j hs hr hb hf hj hpc
  obtain ⟨j', hj', hend, hback, -⟩ := Image.loopStart_target hs.image hf
  obtain rfl := Option.some.inj (hj.symm.trans hj')
  rcases hpc with rfl | rfl
  · exact hs.step_at_loopStart hr hb hf hj
  · exact hs.step_at_loopEnd hr hb hend hback

/-- Settles O41: in bounds a zero cell takes the jump, which turns on the entry; any other cell passes. -/
theorem loopStartResult : Obligations.LoopStartResult := by
  refine ⟨rfl, fun s t hb hz ht => ?_, fun s hb hz => ?_, fun s hb hz ht => ?_,
    fun s hb => exec_loopStart_of_le hb⟩
  · rw [exec_loopStart_of_lt hb, if_pos hz]
    exact jumpPastTarget_of_some ht
  · rw [exec_loopStart_of_lt hb, if_neg hz]
    rfl
  · rw [exec_loopStart_of_lt hb, if_pos hz]
    exact jumpPastTarget_of_none ht

/-- Settles O42: the jump of O41 with the test reversed: a zero cell passes, any other takes it. -/
theorem loopEndResult : Obligations.LoopEndResult := by
  refine ⟨rfl, fun s t hb hz ht => ?_, fun s hb hz => ?_, fun s hb hz ht => ?_,
    fun s hb => exec_loopEnd_of_le hb⟩
  · rw [exec_loopEnd_of_lt hb, if_neg hz]
    exact jumpPastTarget_of_some ht
  · rw [exec_loopEnd_of_lt hb, if_pos hz]
    rfl
  · rw [exec_loopEnd_of_lt hb, if_neg hz]
    exact jumpPastTarget_of_none ht

end Sys2Proof.Machine
end

section
/-! Faults (R93 to R101): the condition of each cause said once. A running step raises a cause exactly
where its condition holds, and then its whole effect is fault entry. -/

namespace Sys2Proof.Machine

/-- The condition of each cause in a running state (R94 to R98). -/
def State.Raises (s : State) : FaultCause → Prop
  | .none => False
  | .readAccessViolation =>
    (s.image.fetch s.pc = some (encode .output) ∨ s.image.fetch s.pc = some (encode .loopStart) ∨
      s.image.fetch s.pc = some (encode .loopEnd)) ∧ s.cfg.tapeLen ≤ s.mp
  | .writeAccessViolation =>
    (s.image.fetch s.pc = some (encode .cellInc) ∨ s.image.fetch s.pc = some (encode .cellDec) ∨
      s.image.fetch s.pc = some (encode .input) ∧ ∃ b rest, s.answers = .data b :: rest) ∧
      s.cfg.tapeLen ≤ s.mp
  | .inputSourceFailure =>
    s.image.fetch s.pc = some (encode .input) ∧ ∃ rest, s.answers = .fail :: rest
  | .illegalInstruction => ∃ b, s.image.fetch s.pc = some b ∧ isOpcode b = false
  | .missingJumpTarget =>
    s.mp < s.cfg.tapeLen ∧ s.image.jumpTarget s.pc = none ∧
      (s.image.fetch s.pc = some (encode .loopStart) ∧ s.tape.read s.mp = 0#8 ∨
        s.image.fetch s.pc = some (encode .loopEnd) ∧ s.tape.read s.mp ≠ 0#8)

/-- What a faulting step leaves before fault entry: a `,` faults only after it has taken its answer
(R89, R101). -/
def State.answerTaken (s : State) : State :=
  { s with
    answers := if s.image.fetch s.pc = some (encode .input) then s.answers.tail else s.answers }

section

variable {i : Instr} {c : FaultCause} {s t : State}

theorem State.Raises.ne_none (h : s.Raises c) : c ≠ .none := by
  rintro rfl
  exact h

theorem State.answerTaken_of_ne (h : s.image.fetch s.pc ≠ some (encode .input)) :
    s.answerTaken = s := by
  rw [State.answerTaken, if_neg h]

theorem State.answerTaken_of_instr (hf : s.image.fetch s.pc = some (encode i))
    (hi : encode i ≠ encode .input) : s.answerTaken = s :=
  State.answerTaken_of_ne fun h => hi (Option.some.inj (hf.symm.trans h))

theorem State.answerTaken_of_input (hf : s.image.fetch s.pc = some (encode .input))
    {x : InputAnswer} {rest : List InputAnswer} (ha : s.answers = x :: rest) :
    s.answerTaken = { s with answers := rest } := by
  rw [State.answerTaken, if_pos hf, ha, List.tail_cons]

/-! ### Where its condition holds, a cause is raised -/

/-- An instruction other than `,` that answers fault entry makes the step fault with every answer kept. -/
theorem step_eq_enterFault (hr : s.fsm = .running) (hf : s.image.fetch s.pc = some (encode i))
    (hi : encode i ≠ encode .input) (h : exec i s = .next (s.enterFault c)) :
    step s = .next (s.answerTaken.enterFault c) := by
  rw [step_at_instr hr hf, State.answerTaken_of_instr hf hi, h]

/-- R89, R101: out of bounds, a `,` that gets a byte faults after it has taken it. -/
theorem step_input_of_data_of_le (hr : s.fsm = .running)
    (hf : s.image.fetch s.pc = some (encode .input)) {b : Byte} {rest : List InputAnswer}
    (ha : s.answers = .data b :: rest) (hb : s.cfg.tapeLen ≤ s.mp) :
    step s = .next (s.answerTaken.enterFault .writeAccessViolation) := by
  rw [step_at_instr hr hf, State.answerTaken_of_input hf ha, exec_input_of_data ha]
  exact writeOperand_of_le (s := { s with answers := rest }) b _ hb

/-- R94 to R99: under the condition of a cause the step is fault entry with that cause. -/
theorem State.Raises.step_eq (h : s.Raises c) (hr : s.fsm = .running) :
    step s = .next (s.answerTaken.enterFault c) := by
  cases c with
  | none => exact h.elim
  | readAccessViolation =>
    obtain ⟨hf | hf | hf, hb⟩ := h
    · exact step_eq_enterFault hr hf (by decide) (exec_output_of_le hb)
    · exact step_eq_enterFault hr hf (by decide) (exec_loopStart_of_le hb)
    · exact step_eq_enterFault hr hf (by decide) (exec_loopEnd_of_le hb)
  | writeAccessViolation =>
    obtain ⟨hf | hf | ⟨hf, b, rest, ha⟩, hb⟩ := h
    · exact step_eq_enterFault hr hf (by decide) (CellOp.inc.exec_of_le hb)
    · exact step_eq_enterFault hr hf (by decide) (CellOp.dec.exec_of_le hb)
    · exact step_input_of_data_of_le hr hf ha hb
  | inputSourceFailure =>
    obtain ⟨hf, rest, ha⟩ := h
    rw [step_at_instr hr hf, State.answerTaken_of_input hf ha, exec_input_of_fail ha]
  | illegalInstruction =>
    obtain ⟨b, hf, hb⟩ := h
    have hne : s.image.fetch s.pc ≠ some (encode .input) := by
      intro he
      obtain rfl := Option.some.inj (hf.symm.trans he)
      cases hb.symm.trans (isOpcode_encode _)
    rw [step_at_illegal hr hf hb, State.answerTaken_of_ne hne]
  | missingJumpTarget =>
    obtain ⟨hb, ht, ⟨hf, hz⟩ | ⟨hf, hz⟩⟩ := h
    · obtain ⟨-, -, -, hmissing, -⟩ := loopStartResult
      exact step_eq_enterFault hr hf (by decide) (hmissing s hb hz ht)
    · obtain ⟨-, -, -, hmissing, -⟩ := loopEndResult
      exact step_eq_enterFault hr hf (by decide) (hmissing s hb hz ht)

theorem State.Raises.faultCause_eq (h : s.Raises c) (hr : s.fsm = .running) (hs : step s = .next t) :
    t.faultCause = c := by
  cases (h.step_eq hr).symm.trans hs
  rfl

/-! ### A cause is raised only where its condition holds -/

theorem Effect.raises (h : Effect i s t) (hf : s.image.fetch s.pc = some (encode i)) :
    t.fsm = s.fsm ∧ t.faultCause = s.faultCause ∨ ∃ c, s.Raises c := by
  cases h with
  | inputFailed rest hi ha => exact .inr ⟨.inputSourceFailure, hi ▸ hf, rest, ha⟩
  | inputLost b rest hi ha hb =>
    exact .inr ⟨.writeAccessViolation, .inr (.inr ⟨hi ▸ hf, b, rest, ha⟩), hb⟩
  | noTarget hi hb ht =>
    have hbracket := hi.imp (fun ⟨hs, hz⟩ => And.intro (hs ▸ hf) hz)
      (fun ⟨he, hz⟩ => And.intro (he ▸ hf) hz)
    exact .inr ⟨.missingJumpTarget, hb, ht, hbracket⟩
  | readViolation hi hb =>
    refine .inr ⟨.readAccessViolation, ?_, hb⟩
    rcases hi with rfl | rfl | rfl
    · exact .inl hf
    · exact .inr (.inl hf)
    · exact .inr (.inr hf)
  | writeViolation hi hb =>
    refine .inr ⟨.writeAccessViolation, ?_, hb⟩
    rcases hi with rfl | rfl
    · exact .inl hf
    · exact .inr (.inl hf)
  | _ => exact .inl ⟨rfl, rfl⟩

/-- A running step leaves the cause and does not fault, or some cause's condition holds. -/
theorem StepEffect.raises (h : StepEffect s t) (hr : s.fsm = .running) :
    t.fsm ≠ .faulted ∧ t.faultCause = s.faultCause ∨ ∃ c, s.Raises c := by
  cases h with
  | ended hs | faulted hs => cases hr.symm.trans hs
  | finished => exact .inl ⟨nofun, rfl⟩
  | illegal b _ hf hb => exact .inr ⟨.illegalInstruction, b, hf, hb⟩
  | ran i _ _ hf he =>
    refine (he.raises hf).imp_left fun ⟨hfsm, hcause⟩ => ⟨?_, hcause⟩
    rw [hfsm, hr]
    nofun

/-- R94 to R98: from a state with no cause recorded, a running step records a cause exactly under its
condition. -/
theorem step_faultCause_iff (hr : s.fsm = .running) (hn : s.faultCause = .none)
    (h : step s = .next t) (hc : c ≠ .none) : t.faultCause = c ↔ s.Raises c := by
  refine ⟨?_, fun hraise => hraise.faultCause_eq hr h⟩
  rintro rfl
  rcases (step_effect h).raises hr with ⟨-, hcause⟩ | ⟨d, hd⟩
  · exact absurd (hcause.trans hn) hc
  · rwa [hd.faultCause_eq hr h]

/-- R99: a faulting step is fault entry, with a cause whose condition holds. -/
theorem step_faulted_eq (hr : s.fsm = .running) (h : step s = .next t) (ht : t.fsm = .faulted) :
    ∃ c, s.Raises c ∧ t = s.answerTaken.enterFault c := by
  rcases (step_effect h).raises hr with ⟨hne, -⟩ | ⟨c, hc⟩
  · exact absurd ht hne
  · exact ⟨c, hc, Host.Outcome.next.inj (h.symm.trans (hc.step_eq hr))⟩

/-- R101: a bracket in bounds that does not jump commits, whatever the table holds. -/
theorem step_of_passed (hr : s.fsm = .running) (hb : s.mp < s.cfg.tapeLen)
    (hpass : s.image.fetch s.pc = some (encode .loopStart) ∧ s.tape.read s.mp ≠ 0#8 ∨
      s.image.fetch s.pc = some (encode .loopEnd) ∧ s.tape.read s.mp = 0#8) :
    step s = .next (s.advance s.nextPc) := by
  rcases hpass with ⟨hf, hz⟩ | ⟨hf, hz⟩
  · rw [step_at_instr hr hf, exec_loopStart_of_lt hb, if_neg hz]
  · rw [step_at_instr hr hf, exec_loopEnd_of_lt hb, if_pos hz]

end

/-- Settles O17: fault entry, after a `,` has taken its answer, leaves every other piece of the state. -/
theorem faultingStepWritesNoState : Obligations.FaultingStepWritesNoState := by
  intro s t hr h ht
  obtain ⟨c, hc, rfl⟩ := step_faulted_eq hr h ht
  exact ⟨rfl, rfl, rfl, hc.ne_none, rfl, rfl, rfl, rfl, rfl, rfl, fun hne => if_neg hne,
    fun hin => if_pos hin⟩

/-- Settles O18: the five conditions are those of `State.Raises`. -/
theorem faultCausesExact : Obligations.FaultCausesExact := by
  intro s t hr hn h
  have hiff {c : FaultCause} (hc : c ≠ .none) := step_faultCause_iff hr hn h hc
  refine ⟨hiff nofun, hiff nofun, hiff nofun, hiff nofun, hiff nofun, fun ht => ?_⟩
  obtain ⟨c, -, rfl⟩ := step_faulted_eq hr h ht
  rfl

/-- Settles O19: the end check runs first and raises nothing; in the next three clauses the condition of
the cause named holds, whatever else does; in the last the jump is not taken. -/
theorem faultOrder : Obligations.FaultOrder := by
  refine ⟨fun s t hr hn h => ?_, fun s t b hr hf hb h => ?_, fun s t rest hr hf ha h => ?_,
    fun s t hr hf hb h => ?_, fun s t hr hb hpass h => ?_⟩
  · cases (step_at_end hr hn).symm.trans h
    nofun
  · exact State.Raises.faultCause_eq (c := .illegalInstruction) ⟨b, hf, hb⟩ hr h
  · exact State.Raises.faultCause_eq (c := .inputSourceFailure) ⟨hf, rest, ha⟩ hr h
  · exact State.Raises.faultCause_eq (c := .readAccessViolation) ⟨.inr hf, hb⟩ hr h
  · cases (step_of_passed hr hb hpass).symm.trans h
    exact hr

/-- Settles O29: boot reaches an admitted state only, and every act of the host keeps it admitted. That the
image was built is not needed, since boot checks it again. -/
theorem builtProgramsRaiseNoDefensiveFault : Obligations.BuiltProgramsRaiseNoDefensiveFault := by
  intro c src img s t es _ hboot hrun
  obtain ⟨hc, hw, rfl⟩ := (boot_eq_next_iff s).1 hboot
  have ht : t.Admitted :=
    hostRun_induction hostKeepsAdmitted es _ t (State.resetOf_admitted hc hw) hrun
  exact ⟨ht.legal, ht.target, ht.pcBound⟩

end Sys2Proof.Machine
end

section
/-! The host during a session (R110 to R119): the two waits, reset, and what no act of the host changes. -/

namespace Sys2Proof.Machine

/-- The host's side of the streams: the answers that are ready and the level of the sink (R86, R87). -/
def State.withStreams (answers : List InputAnswer) (sinkReady : Bool) (s : State) : State :=
  { s with answers := answers, sinkReady := sinkReady }

/-- Everything an act of the host that is not refused can do: change the streams, make a step after
that, reset, or place an image outside a session. -/
inductive HostEffect (e : HostEvent) (s : State) : State → Prop
  | streamed (as : List InputAnswer) (r : Bool) : HostEffect e s (s.withStreams as r)
  | stepped (as : List InputAnswer) (r : Bool) {t : State}
      (h : step (s.withStreams as r) = .next t) : HostEffect e s t
  | reset (he : e = .reset) : HostEffect e s s.applyReset
  | placed (img : Image) (hf : s.fsm ≠ .running) : HostEffect e s (s.withImage img)

section

variable {e : HostEvent} {s t : State} {w : Wait}

/-! ### What one act does -/

theorem hostStep_effect (h : hostStep e s = .next t) : HostEffect e s t := by
  cases e with
  | request =>
    simp only [hostStep, hostRequest] at h
    split at h
    · exact .stepped s.answers s.sinkReady h
    · cases h
  | answer x =>
    simp only [hostStep, hostAnswer] at h
    split at h
    · exact .stepped (s.answers ++ [x]) s.sinkReady h
    · cases h; exact .streamed s.answers s.sinkReady
  | ready x =>
    simp only [hostStep, hostReady] at h
    split at h
    · exact .stepped (s.answers ++ [x]) s.sinkReady h
    · cases h; exact .streamed (s.answers ++ [x]) s.sinkReady
  | sink r =>
    simp only [hostStep, hostSink] at h
    split at h
    · exact .stepped s.answers r h
    · cases h; exact .streamed s.answers r
  | reset => cases h; exact .reset rfl
  | place img =>
    simp only [hostStep, hostPlace] at h
    split at h
    · cases h
    next hf =>
      split at h
      · cases h; exact .placed img hf
      · cases h

/-- R65, R113, D21. -/
theorem hostStep_request_of_waiting (h : s.wait ≠ .idle) :
    hostStep .request s = .refused .overlappingRequest :=
  if_neg h

/-- R87: the answer completes the `,` step that waits. -/
theorem hostStep_answer_of_receive (h : s.wait = .receive) (x : InputAnswer) :
    hostStep (.answer x) s = step (s.addAnswer x) :=
  if_pos h

/-- R119: an answer that no request waits for is dropped. -/
theorem hostStep_answer_of_ne (h : s.wait ≠ .receive) (x : InputAnswer) :
    hostStep (.answer x) s = .next s :=
  if_neg h

theorem hostStep_sink_of_receive (h : s.wait = .receive) (r : Bool) :
    hostStep (.sink r) s = .next (s.setSinkReady r) := by
  have hoffering : s.offering = false := by rw [State.offering, h]
  simp [hostStep, hostSink, hoffering]

/-- R86, R117: the byte offered is taken as soon as the sink takes bytes. -/
theorem hostStep_sink_true_of_emit {b : Byte} (h : s.wait = .emit b) :
    hostStep (.sink true) s = step (s.setSinkReady true) := by
  simp [hostStep, hostSink, State.offering_of_emit h]

/-- R114, D20. -/
theorem hostStep_place_of_running (h : s.fsm = .running) (img : Image) :
    hostStep (.place img) s = .refused .imageChangedInSession :=
  if_pos h

/-! ### What every act leaves -/

/-- R67: in a terminal state a step writes its response and nothing else. -/
theorem step_of_terminal (h : s.terminal = true) : ∃ r, step s = .next (s.respond r) := by
  rcases s.terminal_iff.1 h with hs | hs
  · exact ⟨_, step_of_endOfProgram hs⟩
  · exact ⟨_, step_of_faulted hs⟩

/-- R110: in a terminal state only reset writes engine state. -/
theorem HostEffect.engine_of_terminal (h : HostEffect e s t) (hs : s.terminal = true)
    (he : e ≠ .reset) :
    t.fsm = s.fsm ∧ t.faultCause = s.faultCause ∧ t.pc = s.pc ∧ t.mp = s.mp ∧ t.tape = s.tape := by
  cases h with
  | streamed | placed => exact ⟨rfl, rfl, rfl, rfl, rfl⟩
  | stepped as r h =>
    obtain ⟨q, hq⟩ := step_of_terminal (s := s.withStreams as r) hs
    cases h.symm.trans hq
    exact ⟨rfl, rfl, rfl, rfl, rfl⟩
  | reset hreset => exact absurd hreset he

/-- R114: in a session every act keeps the image and the parameters. -/
theorem HostEffect.image_cfg_of_running (h : HostEffect e s t) (hr : s.fsm = .running) :
    t.image = s.image ∧ t.cfg = s.cfg := by
  cases h with
  | streamed | reset => exact ⟨rfl, rfl⟩
  | stepped as r h => exact (step_effect h).cfg_image.symm
  | placed img hf => exact absurd hr hf

/-! ### A step that waits -/

/-- R26, R116, R117: a waiting step has written nothing that a step reads, so taking it up again is
taking it for the first time. -/
theorem step_holdIn (w : Wait) (s : State) : step (s.holdIn w) = step s := by
  obtain ⟨t, u, sent, ht, hu, hsent, rfl⟩ := step_alike w none s.emitted s
  rw [← hsent] at hu
  exact hu.trans ht.symm

/-- A step that waits is found waiting, in the same state, by any number of further calls. -/
theorem stepN_of_hold (h : step s = .next (s.holdIn w)) (k : Nat) :
    stepN (k + 1) s = .next (s.holdIn w) := by
  have hfixed : step (s.holdIn w) = .next (s.holdIn w) := (step_holdIn w s).trans h
  rw [stepN_succ h, stepN_of_fixed hfixed]

theorem step_input_waits (hr : s.fsm = .running) (hf : s.image.fetch s.pc = some (encode .input))
    (ha : s.answers = []) : step s = .next (s.holdIn .receive) :=
  (step_at_instr hr hf).trans (exec_input_of_nil ha)

theorem step_output_waits (hr : s.fsm = .running) (hf : s.image.fetch s.pc = some (encode .output))
    (hb : s.mp < s.cfg.tapeLen) (hsink : s.sinkReady = false) :
    step s = .next (s.holdIn (.emit (s.tape.read s.mp))) := by
  rw [step_at_instr hr hf, exec_output_of_lt hb]
  exact emitAndCommit_of_not_ready _ _ hsink

/-- R116: the answer completes a waiting `,` step as if it had been ready. -/
theorem hostStep_answer_holdIn (s : State) (x : InputAnswer) :
    hostStep (.answer x) (s.holdIn .receive) = step (s.addAnswer x) :=
  (hostStep_answer_of_receive rfl x).trans (step_holdIn .receive (s.addAnswer x))

/-- R117: the sink completes a waiting `.` step as if it had been ready. -/
theorem hostStep_sink_holdIn (s : State) (b : Byte) :
    hostStep (.sink true) (s.holdIn (.emit b)) = step (s.setSinkReady true) :=
  (hostStep_sink_true_of_emit rfl).trans (step_holdIn (.emit b) (s.setSinkReady true))

end

/-- Settles O48: the step is one that waits, so further calls find it so, and the answer takes it up from
its beginning. -/
theorem inputWaitHolds : Obligations.InputWaitHolds := by
  intro s hr hf ha
  refine ⟨s.holdIn .receive, rfl, rfl, stepN_of_hold (step_input_waits hr hf ha),
    hostStep_request_of_waiting nofun, hostStep_sink_of_receive rfl, fun x => ?_⟩
  rw [hostStep_answer_holdIn, State.addAnswer, ha, List.nil_append]

/-- Settles O49: as O48, with the sink's level in the place of the answer. -/
theorem outputWaitHolds : Obligations.OutputWaitHolds := by
  intro s hr hf hb hsink
  exact ⟨s.holdIn (.emit (s.tape.read s.mp)), rfl, rfl, rfl,
    stepN_of_hold (step_output_waits hr hf hb hsink), hostStep_request_of_waiting nofun,
    hostStep_answer_of_ne nofun, hostStep_sink_holdIn s _⟩

/-- Settles O50: the values reset writes; a step that another act makes in a terminal state only repeats
its response. -/
theorem resetInAnyState : Obligations.ResetInAnyState :=
  ⟨fun s => ⟨s.applyReset, rfl, rfl, rfl, Memory.read_nil, rfl, rfl, rfl, rfl, rfl⟩,
    fun _ _ _ hs he h => (hostStep_effect h).engine_of_terminal hs he⟩

/-- Settles O53: of all acts only placing writes the image, and a session refuses it. -/
theorem imageFixedDuringSession : Obligations.ImageFixedDuringSession :=
  ⟨fun img _ hr => hostStep_place_of_running hr img,
    fun _ _ _ hr h => (hostStep_effect h).image_cfg_of_running hr⟩

/-- Settles O52: reset writes neither stream and leaves no step waiting, so a later answer is dropped. -/
theorem resetDuringWait : Obligations.ResetDuringWait := fun s _ =>
  ⟨s.applyReset, rfl, rfl, rfl, rfl, rfl, rfl, hostStep_answer_of_ne nofun⟩

end Sys2Proof.Machine
end
